-- ==== Sys2Proof/Word.lean ====
section
/-! DEFINITION. The word and byte types of sprite_blit_engine (00_scope.md R7, R8: XLEN = AW = 32). -/

namespace Sys2Proof

/-- A register value, a datapath value or a byte address; `+`, `-`, `*`, `<<<`, `>>>`, `&&&` on it are R8's,
modulo `2^32`. -/
abbrev Word := BitVec 32

/-- One byte of memory. -/
abbrev Byte := BitVec 8

/-- The 39-bit transaction word `TW = {we, off[5:0], data[31:0]}` of R78. -/
abbrev TW := BitVec 39

end Sys2Proof
end

