-- ==== Sys2Proof/Config.lean ====
section
/-! DEFINITION. The parameters of one engine (00_scope.md R7), what the platform fixes around it (20_memory.md R51, R67),
and the free values of the slack write (41_scanline_copy.md R108). -/

namespace Sys2Proof

/-- The pixel width W of R7 and R90, fixed when the engine is built. No other width exists (R96, U8). -/
inductive PixelWidth where
  | w8
  | w16
deriving DecidableEq, Repr

/-- A region of the platform's memory map. The engine fixes nothing of the map (R51); the platform says which bytes may be
read as ordinary memory without side effects (R59) and which are writable memory (R67). -/
structure Region where
  base      : Nat
  size      : Nat
  plainRead : Bool
  writable  : Bool
deriving DecidableEq, Repr

/-- What is fixed for one engine on one platform. No step changes it. -/
structure Config where
  /-- W of R7 -/
  width : PixelWidth
  /-- DIV_WHEN_SUPPRESSED of R7 (R144, U7) -/
  divWhenSuppressed : Bool
  /-- the lowest address of the 64-byte register window, placed by the platform (R51) -/
  window : Word
  /-- the platform's memory map; an address in no region has no memory behind it (R67). Where regions overlap the first
  one listed counts. -/
  regions : List Region
deriving DecidableEq, Repr

/-- The parameters the reset state carries. DESIGN CHOICE (logs 1 and 2): W = 8, a plain RAM over the whole space and the
register window in its last 64 bytes; DIV_WHEN_SUPPRESSED = true is R7's default. -/
def Config.atReset : Config :=
  { width := .w8
    divWhenSuppressed := true
    window := 0xFFFFFFC0#32
    regions := [⟨0, 2 ^ 32, true, true⟩] }

/-- The slack draws of R108: draw number `n` is `none` (the slack unit of that row is not written) or `some x` (it is
written with `x`). A FREE VALUE with no body: nothing can evaluate it (log 3). -/
opaque Config.freeSlack : Nat → Option Byte

end Sys2Proof
end

