-- ==== Sys2Proof/Syntax.lean ====
section
/-! DEFINITION. What the host can ask of the engine: the register names (10_state.md R21), the instructions (one constructor
per row of spec/opcode_table.json) and the host's operations (44_host_interface.md R170). -/

namespace Sys2Proof

/-- The sixteen registers of R21, in the order of their offsets. -/
inductive RegName where
  | srcBase | srcW | srcH | srcStride | srcX | srcY | dstX | dstY | dstW | dstH | scale | flags
  | fbBase | fbPitch | ctrl | start
deriving DecidableEq, Repr

/-- The instructions. The eight blit operations are named by FLAGS (R71, R73) and carry the modifier OVERWRITE_EDGES; the
others are host transactions (R78). An ignored bit (R77, R78) is no operand. -/
inductive Instr where
  /-- R145 -/
  | blt (oe : Bool)
  /-- R146 -/
  | bltH (oe : Bool)
  /-- R147 -/
  | bltV (oe : Bool)
  /-- R148 -/
  | bltHV (oe : Bool)
  /-- R149 -/
  | blts (oe : Bool)
  /-- R150 -/
  | bltsH (oe : Bool)
  /-- R151 -/
  | bltsV (oe : Bool)
  /-- R152 -/
  | bltsHV (oe : Bool)
  /-- R171, R22 -/
  | wrSrcBase (value : Word)
  /-- R171, R23 -/
  | wrSrcW (value : Word)
  /-- R171, R24 -/
  | wrSrcH (value : Word)
  /-- R171, R25 -/
  | wrSrcStride (value : Word)
  /-- R171, R26 -/
  | wrSrcX (value : Word)
  /-- R171, R27 -/
  | wrSrcY (value : Word)
  /-- R171, R28 -/
  | wrDstX (value : Word)
  /-- R171, R29 -/
  | wrDstY (value : Word)
  /-- R171, R30 -/
  | wrDstW (value : Word)
  /-- R171, R31 -/
  | wrDstH (value : Word)
  /-- R171, R32 -/
  | wrScale (value : Word)
  /-- R171, R33 -/
  | wrFlags (value : Word)
  /-- R171, R34 -/
  | wrFbBase (value : Word)
  /-- R171, R35 -/
  | wrFbPitch (value : Word)
  /-- R171, R36 -/
  | wrCtrl (value : Word)
  /-- R173: WR START with an odd value -/
  | go
  /-- R174: WR START with an even value -/
  | wrStartEven
  /-- R172 -/
  | rdSrcBase
  /-- R172 -/
  | rdSrcW
  /-- R172 -/
  | rdSrcH
  /-- R172 -/
  | rdSrcStride
  /-- R172 -/
  | rdSrcX
  /-- R172 -/
  | rdSrcY
  /-- R172 -/
  | rdDstX
  /-- R172 -/
  | rdDstY
  /-- R172 -/
  | rdDstW
  /-- R172 -/
  | rdDstH
  /-- R172 -/
  | rdScale
  /-- R172 -/
  | rdFlags
  /-- R172 -/
  | rdFbBase
  /-- R172 -/
  | rdFbPitch
  /-- R172 -/
  | rdCtrl
  /-- R172 -/
  | rdStart
deriving DecidableEq, Repr

/-- The size of a host access to the register window. Only `word` is defined (R80, R176). -/
inductive AccessWidth where
  | byte | half | word
deriving DecidableEq, Repr

/-- One host access to the register window: its size and its transaction word (R78). -/
structure Access where
  width : AccessWidth
  tw    : TW
deriving DecidableEq, Repr

/-- What the host can do next. `access` is R170's register port. `storeByte` and `loadByte` are the host's own memory
accesses, by which R64 (a) and (c) can be said (R44: by its own means; log 7). `reset` is R200 to R202 (log 9). -/
inductive HostOp where
  | access (a : Access)
  | storeByte (addr : Word) (value : Byte)
  | loadByte (addr : Word)
  | reset
deriving DecidableEq, Repr

end Sys2Proof
end

