-- ==== Sys2Proof/WellFormed.lean ====
section
/-! DEFINITION. Which host accesses are well formed (30_encoding.md R78, R80; 44_host_interface.md R176). An `Instr` has no
check of its own: each operand is as wide as its field and every value of it is accepted (R74, R171). -/

namespace Sys2Proof

/-- The byte offset within the register window, `TW[37:32]` (R78). -/
def Access.offset (a : Access) : BitVec 6 := a.tw.extractLsb' 32 6

/-- R80, R176: the access is a whole 32-bit word. -/
def Access.isWord (a : Access) : Bool := a.width == .word

/-- R78, R80: `off[1:0]` is `00`. -/
def Access.isAligned (a : Access) : Bool := a.offset.extractLsb' 0 2 == 0#2

/-- R176: the shapes of access this engine defines. -/
def Access.wellFormed (a : Access) : Bool := a.isWord && a.isAligned

end Sys2Proof
end

