-- ==== Sys2Proof/Decode.lean ====
section
/-! DEFINITION. Decoding and encoding (30_encoding.md R70 to R80; spec/opcode_table.json). A blit is encoded by a FLAGS word,
everything else by a transaction word. -/

namespace Sys2Proof

/-! The fields of the two formats. -/

/-- The dispatch key `FLAGS[2:0] = {S, V, H}` (R72). -/
def flagsKey (f : Word) : BitVec 3 := f.extractLsb' 0 3

/-- OVERWRITE_EDGES, `FLAGS[3]` (R33, R71). -/
def flagsOE (f : Word) : Bool := f.getLsbD 3

/-- The FLAGS word `0...0esvh` with a given key and OVERWRITE_EDGES (R71, R83: key, or key + 8 for `+OE`). -/
def flagsWord (key : BitVec 3) (oe : Bool) : Word := BitVec.zeroExtend 32 (BitVec.ofBool oe ++ key)

/-- `TW[38]`: 1 for a write (R78). -/
def twWrite (t : TW) : Bool := t.getLsbD 38

/-- `TW[37:32]`: the byte offset (R78). -/
def twOffset (t : TW) : BitVec 6 := t.extractLsb' 32 6

/-- `TW[31:0]`: the data (R78). -/
def twData (t : TW) : Word := t.extractLsb' 0 32

/-- The transaction word `{we, off, data}` (R78). -/
def mkTW (we : Bool) (off : BitVec 6) (data : Word) : TW := (BitVec.ofBool we ++ off) ++ data

/-- The register at a byte offset, by its word number `off[5:2]`; every one of the sixteen is assigned (R21, R80). -/
def regAt (word : BitVec 4) : RegName :=
  match word.toNat with
  | 0 => .srcBase
  | 1 => .srcW
  | 2 => .srcH
  | 3 => .srcStride
  | 4 => .srcX
  | 5 => .srcY
  | 6 => .dstX
  | 7 => .dstY
  | 8 => .dstW
  | 9 => .dstH
  | 10 => .scale
  | 11 => .flags
  | 12 => .fbBase
  | 13 => .fbPitch
  | 14 => .ctrl
  | _ => .start

/-- The byte offset of a register (the table of R21). -/
def regOffset : RegName → BitVec 6
  | .srcBase => 0x00#6
  | .srcW => 0x04#6
  | .srcH => 0x08#6
  | .srcStride => 0x0C#6
  | .srcX => 0x10#6
  | .srcY => 0x14#6
  | .dstX => 0x18#6
  | .dstY => 0x1C#6
  | .dstW => 0x20#6
  | .dstH => 0x24#6
  | .scale => 0x28#6
  | .flags => 0x2C#6
  | .fbBase => 0x30#6
  | .fbPitch => 0x34#6
  | .ctrl => 0x38#6
  | .start => 0x3C#6

/-- The write of a register as an instruction (R171); a write of START is GO or nothing by its bit 0 (R77, R173, R174). -/
def writeInstr : RegName → Word → Instr
  | .srcBase, v => .wrSrcBase v
  | .srcW, v => .wrSrcW v
  | .srcH, v => .wrSrcH v
  | .srcStride, v => .wrSrcStride v
  | .srcX, v => .wrSrcX v
  | .srcY, v => .wrSrcY v
  | .dstX, v => .wrDstX v
  | .dstY, v => .wrDstY v
  | .dstW, v => .wrDstW v
  | .dstH, v => .wrDstH v
  | .scale, v => .wrScale v
  | .flags, v => .wrFlags v
  | .fbBase, v => .wrFbBase v
  | .fbPitch, v => .wrFbPitch v
  | .ctrl, v => .wrCtrl v
  | .start, v => if v.getLsbD 0 then .go else .wrStartEven

/-- The read of a register as an instruction (R172). -/
def readInstr : RegName → Instr
  | .srcBase => .rdSrcBase
  | .srcW => .rdSrcW
  | .srcH => .rdSrcH
  | .srcStride => .rdSrcStride
  | .srcX => .rdSrcX
  | .srcY => .rdSrcY
  | .dstX => .rdDstX
  | .dstY => .rdDstY
  | .dstW => .rdDstW
  | .dstH => .rdDstH
  | .scale => .rdScale
  | .flags => .rdFlags
  | .fbBase => .rdFbBase
  | .fbPitch => .rdFbPitch
  | .ctrl => .rdCtrl
  | .start => .rdStart

/-- The blit operation of a dispatch key (the opcode map of R73; every value is assigned). -/
def blitInstr (key : BitVec 3) (oe : Bool) : Instr :=
  match key.toNat with
  | 0 => .blt oe
  | 1 => .bltH oe
  | 2 => .bltV oe
  | 3 => .bltHV oe
  | 4 => .blts oe
  | 5 => .bltsH oe
  | 6 => .bltsV oe
  | _ => .bltsHV oe

/-- A code word: a FLAGS word (format CMD, R70) or a transaction word (format TW, R78). -/
inductive CodeWord where
  | cmd (flags : Word)
  | tw (t : TW)
deriving DecidableEq, Repr

/-- Why a code word is no instruction. -/
inductive DecodeError where
  /-- `off[1:0]` is not `00` (R78, R80, R176) -/
  | offsetNotAligned
deriving DecidableEq, Repr

/-- The operation a FLAGS word selects: reserved bits are ignored, so every word selects one (R79). -/
def decodeFlags (f : Word) : Instr := blitInstr (flagsKey f) (flagsOE f)

/-- The instruction a transaction word stands for (R78, R80). -/
def decodeTW (t : TW) : Except DecodeError Instr :=
  if (twOffset t).extractLsb' 0 2 = 0#2 then
    let r := regAt ((twOffset t).extractLsb' 2 4)
    .ok (if twWrite t then writeInstr r (twData t) else readInstr r)
  else .error .offsetNotAligned

/-- The decoder, total on every code word. -/
def decode : CodeWord → Except DecodeError Instr
  | .cmd f => .ok (decodeFlags f)
  | .tw t => decodeTW t

/-- The encoder, written from the tables of R73 and R78; ignored bits are 0, and GO is `WR START, 1` (R83). -/
def encode : Instr → CodeWord
  | .blt oe => .cmd (flagsWord 0#3 oe)
  | .bltH oe => .cmd (flagsWord 1#3 oe)
  | .bltV oe => .cmd (flagsWord 2#3 oe)
  | .bltHV oe => .cmd (flagsWord 3#3 oe)
  | .blts oe => .cmd (flagsWord 4#3 oe)
  | .bltsH oe => .cmd (flagsWord 5#3 oe)
  | .bltsV oe => .cmd (flagsWord 6#3 oe)
  | .bltsHV oe => .cmd (flagsWord 7#3 oe)
  | .wrSrcBase v => .tw (mkTW true 0x00#6 v)
  | .wrSrcW v => .tw (mkTW true 0x04#6 v)
  | .wrSrcH v => .tw (mkTW true 0x08#6 v)
  | .wrSrcStride v => .tw (mkTW true 0x0C#6 v)
  | .wrSrcX v => .tw (mkTW true 0x10#6 v)
  | .wrSrcY v => .tw (mkTW true 0x14#6 v)
  | .wrDstX v => .tw (mkTW true 0x18#6 v)
  | .wrDstY v => .tw (mkTW true 0x1C#6 v)
  | .wrDstW v => .tw (mkTW true 0x20#6 v)
  | .wrDstH v => .tw (mkTW true 0x24#6 v)
  | .wrScale v => .tw (mkTW true 0x28#6 v)
  | .wrFlags v => .tw (mkTW true 0x2C#6 v)
  | .wrFbBase v => .tw (mkTW true 0x30#6 v)
  | .wrFbPitch v => .tw (mkTW true 0x34#6 v)
  | .wrCtrl v => .tw (mkTW true 0x38#6 v)
  | .go => .tw (mkTW true 0x3C#6 1#32)
  | .wrStartEven => .tw (mkTW true 0x3C#6 0#32)
  | .rdSrcBase => .tw (mkTW false 0x00#6 0#32)
  | .rdSrcW => .tw (mkTW false 0x04#6 0#32)
  | .rdSrcH => .tw (mkTW false 0x08#6 0#32)
  | .rdSrcStride => .tw (mkTW false 0x0C#6 0#32)
  | .rdSrcX => .tw (mkTW false 0x10#6 0#32)
  | .rdSrcY => .tw (mkTW false 0x14#6 0#32)
  | .rdDstX => .tw (mkTW false 0x18#6 0#32)
  | .rdDstY => .tw (mkTW false 0x1C#6 0#32)
  | .rdDstW => .tw (mkTW false 0x20#6 0#32)
  | .rdDstH => .tw (mkTW false 0x24#6 0#32)
  | .rdScale => .tw (mkTW false 0x28#6 0#32)
  | .rdFlags => .tw (mkTW false 0x2C#6 0#32)
  | .rdFbBase => .tw (mkTW false 0x30#6 0#32)
  | .rdFbPitch => .tw (mkTW false 0x34#6 0#32)
  | .rdCtrl => .tw (mkTW false 0x38#6 0#32)
  | .rdStart => .tw (mkTW false 0x3C#6 0#32)

/-- The code word of a row of spec/opcode_table.json: rows of at most 32 bits are FLAGS words, longer ones transaction words
(39 bits, in 40; log 12). -/
def tableWord (nbits w : Nat) : Option CodeWord :=
  if nbits ≤ 32 then (if w < 2 ^ 32 then some (.cmd (BitVec.ofNat 32 w)) else none)
  else (if w < 2 ^ 39 then some (.tw (BitVec.ofNat 39 w)) else none)

/-- The instruction the decoder reads from a row's word. -/
def decodeTableWord (nbits w : Nat) : Option Instr :=
  match tableWord nbits w with
  | none => none
  | some c =>
    match decode c with
    | .ok i => some i
    | .error _ => none

end Sys2Proof
end

