-- ==== Sys2Proof/Machine/State.lean ====
section
/-! DEFINITION. The state of the machine: the triple (Reg, Mem, Run) of 10_state.md R20, the parameters, and the model's own
fields (INVENTORY.md, State). -/

namespace Sys2Proof.Machine

/-- The twelve command registers (R21 to R33), and the snapshot START takes of them (R38). -/
structure Cmd where
  srcBase   : Word
  srcW      : Word
  srcH      : Word
  srcStride : Word
  srcX      : Word
  srcY      : Word
  dstX      : Word
  dstY      : Word
  dstW      : Word
  dstH      : Word
  scale     : Word
  flags     : Word
deriving DecidableEq, Repr

/-- The snapshot of the framebuffer context, `ctx = (FB_BASE, FB_PITCH, SUPPRESS_DRAW)` (R38). -/
structure Ctx where
  fbBase       : Word
  fbPitch      : Word
  suppressDraw : Bool
deriving DecidableEq, Repr

/-- The register file (R21). START holds no state (R37). -/
structure Regs where
  cmd     : Cmd
  fbBase  : Word
  fbPitch : Word
  ctrl    : Word
deriving DecidableEq, Repr

/-- Memory (R44): the bytes that hold a value, by rising address. -/
abbrev Memory := List Host.Cell

/-- What an address that is not listed reads as: no value (R47). -/
def Memory.unlisted : Option Byte := none

/-- The transient state of a blit in progress (R20): the snapshots of R38, the datapath registers of R41, all 32 bits wide, the
sequencer position `(j, i)` of R40 (row and column in processing order) among them. -/
structure Run where
  cmd  : Cmd
  ctx  : Ctx
  step : Word
  v    : Word
  u    : Word
  sp   : Word
  dp   : Word
  rs   : Word
  j    : Word
  i    : Word
deriving DecidableEq, Repr

/-- What the host was last answered: nothing yet, the word an RD returned (R172), or the byte its own memory read gave. -/
inductive Reply where
  | nothing
  | word (v : Word)
  | byte (b : Byte)
deriving DecidableEq, Repr

/-- The whole state. -/
structure State where
  /-- the parameters of R7; no step changes them (log 1) -/
  cfg   : Config
  /-- R21 -/
  regs  : Regs
  /-- R44 -/
  mem   : Memory
  /-- the blit in progress; `none` is `Run.pos = idle` (R40) -/
  run   : Option Run
  /-- MODEL: what the host will do, in its program order (R170; log 5) -/
  host  : List HostOp
  /-- MODEL: what the host was last answered (log 6) -/
  reply : Reply
  /-- MODEL: the number of slack draws used; it indexes `Config.freeSlack` (log 3) -/
  draws : Nat
deriving DecidableEq, Repr

/-- The engine raises no exception and nothing stops it (R180, R183, R186): there is no fault. -/
inductive Fault : Type
deriving DecidableEq, Repr

/-- Why the model gives a step no meaning. Every one is safe: nothing about the hardware follows from a refused step. -/
inductive Refusal where
  /-- raised by an arm of `exec` whose instruction has no meaning yet; safe -/
  | notModelled (mnemonic : String)
  /-- raised by a scaled blit whose SCALE is not in `[2, 2^31)` (R122, R123, LG1 of R182); safe -/
  | scaleOutOfRange
  /-- raised by a blit that reaches the copy loop with a command outside `Legal` (R182, R183), and by a blit in progress that
  would read a byte that holds no value (R47); safe -/
  | outsideLegal
  /-- raised by a host access that is no aligned 32-bit word (R176); safe -/
  | accessShape
  /-- raised by a host's own memory access that the platform does not admit, or that reads a byte that holds no value
  (R67, R47); safe -/
  | hostMemory
deriving DecidableEq, Repr

/-- All registers 0 (R46, R200). -/
def Regs.zero : Regs :=
  { cmd := ⟨0, 0, 0, 0, 0, 0, 0, 0, 0, 0, 0, 0⟩, fbBase := 0, fbPitch := 0, ctrl := 0 }

/-- The machine right after reset: all registers 0 and the engine idle (R46, R200, R201), nothing in memory (R47), and the
host with nothing to do. -/
def State.reset : State :=
  { cfg := Config.atReset
    regs := Regs.zero
    mem := []
    run := none
    host := []
    reply := .nothing
    draws := 0 }

end Sys2Proof.Machine
end

