-- ==== Sys2Proof/Machine/Flags.lean ====
section
/-! DEFINITION. The fields of FLAGS and CTRL (10_state.md R33, R36; 30_encoding.md R71, R76). The engine has no status flags
and no condition codes (R43): no operation computes a flag. -/

namespace Sys2Proof.Machine

/-- MIRROR_H, bit 0 (R33). -/
def mirrorH (f : Word) : Bool := f.getLsbD 0

/-- MIRROR_V, bit 1 (R33). -/
def mirrorV (f : Word) : Bool := f.getLsbD 1

/-- SCALED, bit 2 (R33). -/
def scaled (f : Word) : Bool := f.getLsbD 2

/-- SUPPRESS_DRAW, bit 0 of CTRL (R36). -/
def suppressBit (c : Word) : Bool := c.getLsbD 0

/-- The bits of FLAGS that exist; bits 31:4 are hardwired 0 (R33, R79). -/
def flagsMask : Word := 0x0000000F#32

/-- The bits of CTRL that exist; bits 31:1 are hardwired 0 (R36, R79). -/
def ctrlMask : Word := 0x00000001#32

end Sys2Proof.Machine
end

