-- ==== Sys2Proof/Machine/Ops.lean ====
section
/-! DEFINITION. The named operations on memory, on the platform's map, on the registers and on the state. There is no
operation that takes an exception or returns from one: the engine has none (60_exceptions.md R180, R186, R187). -/

namespace Sys2Proof.Machine

/-! Memory (R44, R50). -/

/-- The canonical form: addresses rise strictly and lie in the address space; every entry holds a byte, so none is equal to
what an unlisted address reads as. -/
abbrev Memory.wf (m : Memory) : Prop :=
  m.Pairwise (fun c d => c.1 < d.1) ∧ ∀ c ∈ m, c.1 < 2 ^ 32

/-- The byte at a numbered address, if it holds a value. -/
def Memory.lookup : Memory → Nat → Option Byte
  | [], _ => Memory.unlisted
  | c :: m, a => if c.1 = a then some c.2 else Memory.lookup m a

/-- Memory with a byte stored at a numbered address. -/
def Memory.insert : Memory → Nat → Byte → Memory
  | [], a, b => [(a, b)]
  | c :: m, a, b =>
    if a < c.1 then (a, b) :: c :: m
    else if a = c.1 then (a, b) :: m
    else c :: Memory.insert m a b

/-- The byte at an address (R44). -/
def readByte (m : Memory) (a : Word) : Option Byte := m.lookup a.toNat

/-- Memory with one byte stored (R44). -/
def writeByte (m : Memory) (a : Word) (b : Byte) : Memory := m.insert a.toNat b

/-- `MemRead(addr, n)` of R9: `n` bytes, lowest address first, addresses modulo `2^32`. -/
def memRead (m : Memory) (a : Word) : Nat → Option (List Byte)
  | 0 => some []
  | n + 1 =>
    match readByte m a, memRead m (a + 1#32) n with
    | some b, some bs => some (b :: bs)
    | _, _ => none

/-- `MemWrite(addr, n, bytes)` of R9: the first byte at `addr`, addresses modulo `2^32`. -/
def memWrite (m : Memory) (a : Word) : List Byte → Memory
  | [] => m
  | b :: bs => memWrite (writeByte m a b) (a + 1#32) bs

/-! The platform (R51, R59, R67). -/

/-- Whether a region holds an address. -/
def regionHolds (r : Region) (a : Word) : Bool := r.base ≤ a.toNat && a.toNat < r.base + r.size

/-- The region of the platform's map an address lies in. -/
def regionOf (c : Config) (a : Word) : Option Region := c.regions.find? (fun r => regionHolds r a)

/-- Whether the address lies in the engine's 64-byte register window (R51). -/
def inWindow (c : Config) (a : Word) : Bool := (a - c.window).toNat < 64

/-- Readable memory without side effects, outside the register window (R59, LG6 of R182). -/
def platformReads (c : Config) (a : Word) : Bool :=
  (match regionOf c a with | some r => r.plainRead | none => false) && !inWindow c a

/-- Writable memory outside the register window (R67, LG6 of R182). -/
def platformWrites (c : Config) (a : Word) : Bool :=
  (match regionOf c a with | some r => r.writable | none => false) && !inWindow c a

/-! Registers (R21, R79, R171, R172). -/

/-- `RD` of R172: START reads 0, and the reserved bits of FLAGS and CTRL read 0 (R79). -/
def readReg (r : RegName) (g : Regs) : Word :=
  match r with
  | .srcBase => g.cmd.srcBase
  | .srcW => g.cmd.srcW
  | .srcH => g.cmd.srcH
  | .srcStride => g.cmd.srcStride
  | .srcX => g.cmd.srcX
  | .srcY => g.cmd.srcY
  | .dstX => g.cmd.dstX
  | .dstY => g.cmd.dstY
  | .dstW => g.cmd.dstW
  | .dstH => g.cmd.dstH
  | .scale => g.cmd.scale
  | .flags => g.cmd.flags &&& flagsMask
  | .fbBase => g.fbBase
  | .fbPitch => g.fbPitch
  | .ctrl => g.ctrl &&& ctrlMask
  | .start => 0

/-- `WR` of R171: the reserved bits of FLAGS and CTRL are not stored (R79), and START stores nothing (R37). -/
def writeReg (r : RegName) (v : Word) (g : Regs) : Regs :=
  match r with
  | .srcBase => { g with cmd := { g.cmd with srcBase := v } }
  | .srcW => { g with cmd := { g.cmd with srcW := v } }
  | .srcH => { g with cmd := { g.cmd with srcH := v } }
  | .srcStride => { g with cmd := { g.cmd with srcStride := v } }
  | .srcX => { g with cmd := { g.cmd with srcX := v } }
  | .srcY => { g with cmd := { g.cmd with srcY := v } }
  | .dstX => { g with cmd := { g.cmd with dstX := v } }
  | .dstY => { g with cmd := { g.cmd with dstY := v } }
  | .dstW => { g with cmd := { g.cmd with dstW := v } }
  | .dstH => { g with cmd := { g.cmd with dstH := v } }
  | .scale => { g with cmd := { g.cmd with scale := v } }
  | .flags => { g with cmd := { g.cmd with flags := v &&& flagsMask } }
  | .fbBase => { g with fbBase := v }
  | .fbPitch => { g with fbPitch := v }
  | .ctrl => { g with ctrl := v &&& ctrlMask }
  | .start => g

/-- The snapshot `cmd` of R38. -/
def snapshotCmd (g : Regs) : Cmd := { g.cmd with flags := readReg .flags g }

/-- The snapshot `ctx` of R38. -/
def snapshotCtx (g : Regs) : Ctx :=
  { fbBase := readReg .fbBase g, fbPitch := readReg .fbPitch g, suppressDraw := suppressBit (readReg .ctrl g) }

/-! The state. -/

/-- The state with another register file. -/
def State.withRegs (g : Regs) (s : State) : State := { s with regs := g }

/-- The state with another memory. -/
def State.withMem (m : Memory) (s : State) : State := { s with mem := m }

/-- The state with another answer to the host. -/
def State.withReply (a : Reply) (s : State) : State := { s with reply := a }

/-- The state with other work for the host. -/
def State.withHost (ops : List HostOp) (s : State) : State := { s with host := ops }

/-- The state at the end of a blit: its memory, its slack draws used up, the engine idle (R40, R62). -/
def State.finishBlit (m : Memory) (used : Nat) (s : State) : State :=
  { s with mem := m, draws := s.draws + used, run := none }

/-- The slack draws a blit started in this state gets: draw `j` for its processed row `j` (R108). -/
def slackDraws (s : State) : Nat → Option Byte := fun j => Config.freeSlack (s.draws + j)

/-- Reset of an idle engine (R46, R200, R201): every register 0, the engine idle, memory as it was (R47, R202). -/
def resetEngine (s : State) : State := { s with regs := Regs.zero, run := none }

/-- The host's own store of one byte (R44, R64 (a)). -/
def hostStore (a : Word) (b : Byte) (s : State) : Host.Outcome State Fault Refusal :=
  if platformWrites s.cfg a then .next (s.withMem (writeByte s.mem a b)) else .refused .hostMemory

/-- The host's own read of one byte (R44, R64 (c)). -/
def hostLoad (a : Word) (s : State) : Host.Outcome State Fault Refusal :=
  if platformReads s.cfg a then
    match readByte s.mem a with
    | some b => .next (s.withReply (.byte b))
    | none => .refused .hostMemory
  else .refused .hostMemory

end Sys2Proof.Machine
end

