-- ==== Sys2Proof/Machine/PixelFormat.lean ====
section
/-! DEFINITION. pixel_format_handler (40_pixel_format.md R90 to R96). It has no state; pixel values are opaque. -/

namespace Sys2Proof.Machine

/-- `UnitSize(W) = W / 8`, the U of every address rule (R91). -/
def unitSize : PixelWidth → Nat
  | .w8 => 1
  | .w16 => 2

/-- U as a datapath value. -/
def unitWord (w : PixelWidth) : Word := BitVec.ofNat 32 (unitSize w)

/-- `swapUnit`: identity for W = 8, byte swap for W = 16 (R92). -/
def swapUnit (w : PixelWidth) (b : List Byte) : List Byte :=
  match w with
  | .w8 => b
  | .w16 => b.reverse

/-- The decrement-write: the bytes of the unit in descending address order, the first at the highest address (R93). -/
def decWrite (m : Memory) (a : Word) (b : List Byte) : Memory := memWrite m a b.reverse

/-- The alignment test `Aligned(a, n) = (a mod n = 0)` (R95). -/
def aligned (a : Word) (n : Nat) : Bool := a.toNat % n == 0

end Sys2Proof.Machine
end

