-- ==== Sys2Proof/Machine/Operands.lean ====
section
/-! DEFINITION. The addresses and coordinates a blit computes: unit addresses (20_memory.md R52, R53), the fixed-point scaler
(30_encoding.md R75; 42_fixed_point_scaler.md R121 to R128), the orientation (43_dispatch.md R142) and the slack addresses
(41_scanline_copy.md R108, R109). -/

namespace Sys2Proof.Machine

/-- `SrcAddr(cmd, r, c)` (R52). -/
def srcAddr (w : PixelWidth) (cmd : Cmd) (r c : Word) : Word :=
  cmd.srcBase + (r * cmd.srcStride + c) * unitWord w

/-- `DstAddr(ctx, y, x)` (R53). -/
def dstAddr (w : PixelWidth) (ctx : Ctx) (y x : Word) : Word :=
  ctx.fbBase + (y * ctx.fbPitch + x) * unitWord w

/-- A whole-pixel offset as 16.16; bits 31:16 are lost (R75). -/
def toFixed (x : Word) : Word := x <<< 16

/-- The whole index of a 16.16 value: the fraction is discarded (R75). -/
def toIndex (f : Word) : Word := f >>> 16

/-- The wrap mask `x & (d - 1)` (R128). -/
def wrapMask (x d : Word) : Word := x &&& (d - 1)

/-- `RecipStep`: `floor(2^32 / s)` as natural numbers for `2 <= s < 2^31`, refused otherwise (R122, R123). -/
def recipStep (s : Word) : Option Word :=
  if s.toNat < 2 ∨ 2 ^ 31 ≤ s.toNat then none else some (BitVec.ofNat 32 (2 ^ 32 / s.toNat))

/-- The source row of processed row `j` of a scaled blit (R125). -/
def srcRow (cmd : Cmd) (step : Word) (j : Nat) : Word :=
  wrapMask (toIndex (toFixed cmd.srcY + BitVec.ofNat 32 j * step)) cmd.srcH

/-- The source column of processed column `i` of a scaled blit (R126). -/
def srcCol (cmd : Cmd) (step : Word) (i : Nat) : Word :=
  wrapMask (toIndex (toFixed cmd.srcX + BitVec.ofNat 32 i * step)) cmd.srcW

/-- `r(j)` of R153: the source row of processed row `j`. -/
def rowIndex (cmd : Cmd) (step : Word) (j : Nat) : Word :=
  if scaled cmd.flags then srcRow cmd step j else cmd.srcY + BitVec.ofNat 32 j

/-- `c(i)` of R153: the source column of processed column `i`. -/
def colIndex (cmd : Cmd) (step : Word) (i : Nat) : Word :=
  if scaled cmd.flags then srcCol cmd step i else cmd.srcX + BitVec.ofNat 32 i

/-- `y + dj` of R153: the framebuffer row of processed row `j`. -/
def dstRowIndex (cmd : Cmd) (j : Nat) : Word :=
  if mirrorV cmd.flags then cmd.dstY + cmd.dstH - 1 - BitVec.ofNat 32 j else cmd.dstY + BitVec.ofNat 32 j

/-- `x + di` of R153: the framebuffer column of processed column `i`. -/
def dstColIndex (cmd : Cmd) (i : Nat) : Word :=
  if mirrorH cmd.flags then cmd.dstX + cmd.dstW - 1 - BitVec.ofNat 32 i else cmd.dstX + BitVec.ofNat 32 i

/-- The address of the source unit read for `(j, i)` (R153). -/
def srcUnitAddr (w : PixelWidth) (cmd : Cmd) (step : Word) (j i : Nat) : Word :=
  srcAddr w cmd (rowIndex cmd step j) (colIndex cmd step i)

/-- The address of the destination unit written for `(j, i)` (R153). -/
def dstUnitAddr (w : PixelWidth) (cmd : Cmd) (ctx : Ctx) (j i : Nat) : Word :=
  dstAddr w ctx (dstRowIndex cmd j) (dstColIndex cmd i)

/-- `Orient(cmd, ctx)`: the first destination row pointer and the signed row stride (R142). -/
def orient (w : PixelWidth) (cmd : Cmd) (ctx : Ctx) : Word × Word :=
  if mirrorV cmd.flags then
    (dstAddr w ctx (cmd.dstY + cmd.dstH - 1) cmd.dstX, 0 - ctx.fbPitch)
  else (dstAddr w ctx cmd.dstY cmd.dstX, ctx.fbPitch)

/-- Whether the blit may write and read slack: W = 8, S = 0 and OVERWRITE_EDGES (R108). -/
def slackPermitted (w : PixelWidth) (cmd : Cmd) : Bool :=
  w == .w8 && flagsOE cmd.flags && !scaled cmd.flags

/-- The slack address of processed row `j`: one unit right of the rectangle, or left of it when mirrored left to right
(R108, R145 to R148). -/
def slackAddr (w : PixelWidth) (cmd : Cmd) (ctx : Ctx) (j : Nat) : Word :=
  dstAddr w ctx (dstRowIndex cmd j) (if mirrorH cmd.flags then cmd.dstX - 1 else cmd.dstX + cmd.dstW)

/-- The source unit one past the span of processed row `j`, which a slack read may touch (R109). -/
def slackReadAddr (w : PixelWidth) (cmd : Cmd) (j : Nat) : Word :=
  srcAddr w cmd (cmd.srcY + BitVec.ofNat 32 j) (cmd.srcX + cmd.dstW)

/-- How many slack draws the copy loop of a command uses: one a row where slack is permitted (R108). -/
def slackRows (w : PixelWidth) (cmd : Cmd) : Nat := if slackPermitted w cmd then cmd.dstH.toNat else 0

end Sys2Proof.Machine
end

