-- ==== Sys2Proof/Machine/Legality.lean ====
section
/-! DEFINITION. The predicate `Legal` (60_exceptions.md R182): which commands the spec vouches for. The engine checks none of
it (R183). -/

namespace Sys2Proof.Machine

/-- The bytes of a unit. -/
def unitBytes (w : PixelWidth) (a : Word) : List Word :=
  (List.range (unitSize w)).map (fun k => a + BitVec.ofNat 32 k)

/-- The rows of the rectangle in processing order. -/
def rowsOf (cmd : Cmd) : List Nat := List.range cmd.dstH.toNat

/-- The columns of the rectangle in processing order. -/
def colsOf (cmd : Cmd) : List Nat := List.range cmd.dstW.toNat

/-- The bytes of every source unit the blit copies (R182). -/
def texelBytes (w : PixelWidth) (cmd : Cmd) (step : Word) : List Word :=
  (rowsOf cmd).flatMap fun j => (colsOf cmd).flatMap fun i => unitBytes w (srcUnitAddr w cmd step j i)

/-- The bytes of the nominal rectangle (R14, R182). -/
def nominalBytes (w : PixelWidth) (cmd : Cmd) (ctx : Ctx) : List Word :=
  (rowsOf cmd).flatMap fun j => (colsOf cmd).flatMap fun i => unitBytes w (dstUnitAddr w cmd ctx j i)

/-- The bytes of the slack units, where slack is permitted (R108, R182). -/
def slackBytes (w : PixelWidth) (cmd : Cmd) (ctx : Ctx) : List Word :=
  if slackPermitted w cmd then (rowsOf cmd).flatMap fun j => unitBytes w (slackAddr w cmd ctx j) else []

/-- The bytes of the slack-read units, where slack is permitted (R109, R182). -/
def slackReadBytes (w : PixelWidth) (cmd : Cmd) : List Word :=
  if slackPermitted w cmd then (rowsOf cmd).flatMap fun j => unitBytes w (slackReadAddr w cmd j) else []

/-- The read set of a blit (R182). -/
def readSet (w : PixelWidth) (cmd : Cmd) (step : Word) : List Word :=
  texelBytes w cmd step ++ slackReadBytes w cmd

/-- The write set of a blit (R182). -/
def writeSet (w : PixelWidth) (cmd : Cmd) (ctx : Ctx) : List Word :=
  nominalBytes w cmd ctx ++ slackBytes w cmd ctx

/-- One of `2^0, 2^1, ..., 2^31`. -/
def isPowerOfTwo (x : Word) : Bool := (List.range 32).any fun k => x.toNat == 2 ^ k

/-- LG1: the scale is in range (R123). -/
def legalScale (cmd : Cmd) : Bool :=
  !scaled cmd.flags || (decide (2 ≤ cmd.scale.toNat) && decide (cmd.scale.toNat < 2 ^ 31))

/-- LG2: a scaled command's source dimensions are powers of two. -/
def legalDimensions (cmd : Cmd) : Bool :=
  !scaled cmd.flags || (isPowerOfTwo cmd.srcW && isPowerOfTwo cmd.srcH)

/-- LG3: an unscaled command's region lies inside the bitmap, as natural numbers. -/
def legalRange (cmd : Cmd) : Bool :=
  scaled cmd.flags ||
    (decide (cmd.srcX.toNat + cmd.dstW.toNat ≤ cmd.srcW.toNat) &&
      decide (cmd.srcY.toNat + cmd.dstH.toNat ≤ cmd.srcH.toNat))

/-- LG4: both bases are multiples of the unit size (R55). -/
def legalAlignment (w : PixelWidth) (cmd : Cmd) (ctx : Ctx) : Bool :=
  aligned cmd.srcBase (unitSize w) && aligned ctx.fbBase (unitSize w)

/-- LG5: no byte is both read and written (R209). -/
def legalDisjoint (w : PixelWidth) (cmd : Cmd) (ctx : Ctx) (step : Word) : Bool :=
  (readSet w cmd step).all fun a => !(writeSet w cmd ctx).contains a

/-- LG6: the platform admits every access and every byte read holds a value (R59, R67, R47). -/
def legalAdmitted (c : Config) (cmd : Cmd) (ctx : Ctx) (m : Memory) (step : Word) : Bool :=
  ((readSet c.width cmd step).all fun a => platformReads c a && (readByte m a).isSome) &&
    (writeSet c.width cmd ctx).all fun a => platformWrites c a

/-- `Legal(cmd, ctx, Mem)` (R182); `step` is the reciprocal of a scaled command. -/
def legal (c : Config) (cmd : Cmd) (ctx : Ctx) (m : Memory) (step : Word) : Bool :=
  legalScale cmd && legalDimensions cmd && legalRange cmd && legalAlignment c.width cmd ctx &&
    legalDisjoint c.width cmd ctx step && legalAdmitted c cmd ctx m step

end Sys2Proof.Machine
end

