-- ==== Sys2Proof/Machine/Kernels.lean ====
section
/-! DEFINITION. The four kernels: StraightCopy and MirroredCopy (41_scanline_copy.md R100 to R112), ScaledStraight and
ScaledMirrored (42_fixed_point_scaler.md R125 to R134). Each is one row loop and one column loop in the reference order
(20_memory.md R60) over the transient registers of 10_state.md R41; what one unit transfer and the end of a row do is said
once for each kernel. A read of a byte that holds no value makes the kernel answer `none`. -/

namespace Sys2Proof.Machine

/-- The kernels a slot of the dispatch table can hold (R141). -/
inductive Kernel where
  | straightCopy | mirroredCopy | scaledStraight | scaledMirrored
deriving DecidableEq, Repr

/-- The transient registers when the copy loop is entered: `sp0` of R100, `dp0` and `rs` of R142, `v_0` and `u_0` of R125 and
R126, position `(0, 0)` (R40). -/
def startRun (w : PixelWidth) (cmd : Cmd) (ctx : Ctx) (step : Word) : Run :=
  { cmd := cmd
    ctx := ctx
    step := step
    v := toFixed cmd.srcY
    u := toFixed cmd.srcX
    sp := srcAddr w cmd cmd.srcY cmd.srcX
    dp := (orient w cmd ctx).1
    rs := (orient w cmd ctx).2
    j := 0
    i := 0 }

/-- `i * U` for the current column. -/
def colOffset (w : PixelWidth) (r : Run) : Word := r.i * unitWord w

/-- `dr`: the rightmost column of the current destination row (R102, R130). -/
def rightmost (w : PixelWidth) (r : Run) : Word := r.dp + (r.cmd.dstW - 1) * unitWord w

/-- `rp + c * U`: the texel the accumulators select (R129). -/
def texelAddr (w : PixelWidth) (r : Run) : Word :=
  let row := wrapMask (toIndex r.v) r.cmd.srcH
  let col := wrapMask (toIndex r.u) r.cmd.srcW
  r.cmd.srcBase + (row * r.cmd.srcStride) * unitWord w + col * unitWord w

/-- One unit transfer of StraightCopy (R101). -/
def straightUnit (w : PixelWidth) (r : Run) (m : Memory) : Option (Run × Memory) :=
  match memRead m (r.sp + colOffset w r) (unitSize w) with
  | some b => some (r, memWrite m (r.dp + colOffset w r) b)
  | none => none

/-- One unit transfer of MirroredCopy (R102). -/
def mirroredUnit (w : PixelWidth) (r : Run) (m : Memory) : Option (Run × Memory) :=
  match memRead m (r.sp + colOffset w r) (unitSize w) with
  | some b => some (r, decWrite m (rightmost w r - colOffset w r) (swapUnit w b))
  | none => none

/-- One unit transfer of ScaledStraight (R129). -/
def scaledStraightUnit (w : PixelWidth) (r : Run) (m : Memory) : Option (Run × Memory) :=
  match memRead m (texelAddr w r) (unitSize w) with
  | some b => some ({ r with u := r.u + r.step }, memWrite m (r.dp + colOffset w r) b)
  | none => none

/-- One unit transfer of ScaledMirrored (R130). -/
def scaledMirroredUnit (w : PixelWidth) (r : Run) (m : Memory) : Option (Run × Memory) :=
  match memRead m (texelAddr w r) (unitSize w) with
  | some b =>
    some ({ r with u := r.u + r.step }, decWrite m (rightmost w r - colOffset w r) (swapUnit w b))
  | none => none

/-- The slack write of the current row at an address, where it is permitted and drawn (R108). -/
def slackWrite (w : PixelWidth) (draws : Nat → Option Byte) (r : Run) (m : Memory) (a : Word) : Memory :=
  if slackPermitted w r.cmd then
    match draws r.j.toNat with
    | some x => memWrite m a [x]
    | none => m
  else m

/-- The pointers at the end of a row of an unscaled kernel (R100). -/
def nextRowPointers (w : PixelWidth) (r : Run) : Run :=
  { r with sp := r.sp + r.cmd.srcStride * unitWord w, dp := r.dp + r.rs * unitWord w }

/-- The end of a row of StraightCopy: the slack one unit right of the right edge, then the pointers (R101, R108). -/
def straightRowEnd (w : PixelWidth) (draws : Nat → Option Byte) (r : Run) (m : Memory) : Run × Memory :=
  (nextRowPointers w r, slackWrite w draws r m (r.dp + r.cmd.dstW * unitWord w))

/-- The end of a row of MirroredCopy: the slack one unit left of the left edge, then the pointers (R102, R108). -/
def mirroredRowEnd (w : PixelWidth) (draws : Nat → Option Byte) (r : Run) (m : Memory) : Run × Memory :=
  (nextRowPointers w r, slackWrite w draws r m (r.dp - unitWord w))

/-- The end of a row of a scaled kernel: `v` advances, `u` starts again, the destination pointer moves (R125, R126, R129). No
slack (R134). -/
def scaledRowEnd (w : PixelWidth) (r : Run) (m : Memory) : Run × Memory :=
  ({ r with v := r.v + r.step, u := toFixed r.cmd.srcX, dp := r.dp + r.rs * unitWord w }, m)

/-- One unit transfer of a kernel at the current position. -/
def kernelUnit (k : Kernel) (w : PixelWidth) : Run → Memory → Option (Run × Memory) :=
  match k with
  | .straightCopy => straightUnit w
  | .mirroredCopy => mirroredUnit w
  | .scaledStraight => scaledStraightUnit w
  | .scaledMirrored => scaledMirroredUnit w

/-- The end of a row of a kernel. -/
def kernelRowEnd (k : Kernel) (w : PixelWidth) (draws : Nat → Option Byte) : Run → Memory → Run × Memory :=
  match k with
  | .straightCopy => straightRowEnd w draws
  | .mirroredCopy => mirroredRowEnd w draws
  | .scaledStraight => scaledRowEnd w
  | .scaledMirrored => scaledRowEnd w

/-- `for i = 0 .. DST_W - 1` of one row. -/
def columnLoop (unit : Run → Memory → Option (Run × Memory)) (width : Nat) (p : Run × Memory) :
    Option (Run × Memory) :=
  (List.range width).foldlM (fun q i => unit { q.1 with i := BitVec.ofNat 32 i } q.2) p

/-- One iteration of the row loop. -/
def copyRow (unit : Run → Memory → Option (Run × Memory)) (rowEnd : Run → Memory → Run × Memory)
    (width : Nat) (p : Run × Memory) (j : Nat) : Option (Run × Memory) :=
  match columnLoop unit width ({ p.1 with j := BitVec.ofNat 32 j }, p.2) with
  | some q => some (rowEnd q.1 q.2)
  | none => none

/-- `for j = 0 .. DST_H - 1`. -/
def rowLoop (unit : Run → Memory → Option (Run × Memory)) (rowEnd : Run → Memory → Run × Memory)
    (width height : Nat) (p : Run × Memory) : Option (Run × Memory) :=
  (List.range height).foldlM (copyRow unit rowEnd width) p

/-- A kernel from its start registers: the memory it leaves. A zero size writes nothing (R110). -/
def runKernel (k : Kernel) (w : PixelWidth) (draws : Nat → Option Byte) (r : Run) (m : Memory) : Option Memory :=
  if r.cmd.dstW = 0 ∨ r.cmd.dstH = 0 then some m
  else
    match rowLoop (kernelUnit k w) (kernelRowEnd k w draws) r.cmd.dstW.toNat r.cmd.dstH.toNat (r, m) with
    | some q => some q.2
    | none => none

end Sys2Proof.Machine
end

