-- ==== Sys2Proof/Machine/Sequencer.lean ====
section
/-! DEFINITION. The sequencer (10_state.md R40): the position of a blit in progress and how one unit transfer moves it. A blit
that stands in `State.run` is finished by it; no step leaves one there (R173). -/

namespace Sys2Proof.Machine

/-- The range R40 gives the position: `j < DST_H` and `i < DST_W`. -/
def Run.inRange (r : Run) : Bool := r.j.toNat < r.cmd.dstH.toNat && r.i.toNat < r.cmd.dstW.toNat

/-- One unit transfer, and the position after it: the next column; at the last column the end of the row and the next row; after
the last row idle, that is `none` (R40). -/
def tick (k : Kernel) (w : PixelWidth) (draws : Nat → Option Byte) (r : Run) (m : Memory) :
    Option (Option Run × Memory) :=
  match kernelUnit k w r m with
  | none => none
  | some (r1, m1) =>
    if r.i.toNat + 1 < r.cmd.dstW.toNat then some (some { r1 with i := r.i + 1#32 }, m1)
    else
      let q := kernelRowEnd k w draws r1 m1
      if r.j.toNat + 1 < r.cmd.dstH.toNat then some (some { q.1 with j := r.j + 1#32, i := 0 }, q.2)
      else some (none, q.2)

/-- At most `n` unit transfers; an idle engine makes none. -/
def ticks (k : Kernel) (w : PixelWidth) (draws : Nat → Option Byte) : Nat → Option Run → Memory →
    Option (Option Run × Memory)
  | 0, r, m => some (r, m)
  | _ + 1, none, m => some (none, m)
  | n + 1, some r, m =>
    match tick k w draws r m with
    | none => none
    | some (r', m') => ticks k w draws n r' m'

/-- The unit transfers left from a position to the end of the blit. -/
def ticksLeft (r : Run) : Nat := (r.cmd.dstH.toNat - r.j.toNat) * r.cmd.dstW.toNat - r.i.toNat

end Sys2Proof.Machine
end

