-- ==== Sys2Proof/Machine/Blit.lean ====
section
/-! DEFINITION. The dispatch table and the top-level `Blit` (43_dispatch.md R140 to R144). -/

namespace Sys2Proof.Machine

/-- The dispatch table (R141). -/
def table (key : BitVec 3) : Kernel :=
  match key.toNat with
  | 0 => .straightCopy
  | 1 => .mirroredCopy
  | 2 => .straightCopy
  | 3 => .mirroredCopy
  | 4 => .scaledStraight
  | 5 => .scaledMirrored
  | 6 => .scaledStraight
  | _ => .scaledMirrored

/-- Step 2 of R143: the reciprocal of a scaled command, `none` where `RecipStep` refuses. An unscaled command has no step; 0
stands for it and nothing reads it. -/
def stepOf (cmd : Cmd) : Option Word := if scaled cmd.flags then recipStep cmd.scale else some 0

/-- `Blit(cmd, ctx, Mem, draws)` of R143, with the order of exits of R144: the new memory and how many slack draws were used,
or why the model refuses. -/
def blit (c : Config) (cmd : Cmd) (ctx : Ctx) (m : Memory) (draws : Nat → Option Byte) :
    Except Refusal (Memory × Nat) :=
  if ctx.suppressDraw = true ∧ c.divWhenSuppressed = false then .ok (m, 0)
  else
    match stepOf cmd with
    | none => .error .scaleOutOfRange
    | some step =>
      if ctx.suppressDraw = true then .ok (m, 0)
      else if cmd.dstW = 0 ∨ cmd.dstH = 0 then .ok (m, 0)
      else if legal c cmd ctx m step = true then
        match runKernel (table (flagsKey cmd.flags)) c.width draws (startRun c.width cmd ctx step) m with
        | some m' => .ok (m', slackRows c.width cmd)
        | none => .error .outsideLegal
      else .error .outsideLegal

/-- The command a blit operation runs: START's snapshot (R38), with the operation's own FLAGS word. GO selects the operation by
the FLAGS it finds (R73), so under GO the word is the snapshot's. -/
def commandFor (key : BitVec 3) (oe : Bool) (s : State) : Cmd :=
  { snapshotCmd s.regs with flags := flagsWord key oe }

/-- One blit operation as a state transition (R143, R173): only memory changes, and the slack draws used are counted. -/
def runBlit (key : BitVec 3) (oe : Bool) (s : State) : Host.Outcome State Fault Refusal :=
  match blit s.cfg (commandFor key oe s) (snapshotCtx s.regs) s.mem (slackDraws s) with
  | .ok (m, used) => .next { s with mem := m, draws := s.draws + used }
  | .error e => .refused e

/-- The engine finishes the blit in progress from its position (R40, R62, R156). -/
def resumeBlit (r : Run) (s : State) : Host.Outcome State Fault Refusal :=
  match ticks (table (flagsKey r.cmd.flags)) s.cfg.width (slackDraws s) (ticksLeft r) (some r) s.mem with
  | some (_, m) => .next (s.finishBlit m (slackRows s.cfg.width r.cmd))
  | none => .refused .outsideLegal

end Sys2Proof.Machine
end

