-- ==== Sys2Proof/Machine/Blits.lean ====
section
/-! DEFINITION. The eight blit operations (43_dispatch.md R145 to R152), one per slot of the dispatch table. -/

namespace Sys2Proof.Machine

/-- BLT: key 0, StraightCopy, rows top to bottom (R145). -/
def execBlt (oe : Bool) (s : State) : Host.Outcome State Fault Refusal := runBlit 0#3 oe s

/-- BLT.H: key 1, MirroredCopy, rows top to bottom (R146). -/
def execBltH (oe : Bool) (s : State) : Host.Outcome State Fault Refusal := runBlit 1#3 oe s

/-- BLT.V: key 2, StraightCopy, rows bottom to top (R147). -/
def execBltV (oe : Bool) (s : State) : Host.Outcome State Fault Refusal := runBlit 2#3 oe s

/-- BLT.HV: key 3, MirroredCopy, rows bottom to top (R148). -/
def execBltHV (oe : Bool) (s : State) : Host.Outcome State Fault Refusal := runBlit 3#3 oe s

/-- BLTS: key 4, ScaledStraight, rows top to bottom (R149). -/
def execBlts (oe : Bool) (s : State) : Host.Outcome State Fault Refusal := runBlit 4#3 oe s

/-- BLTS.H: key 5, ScaledMirrored, rows top to bottom (R150). -/
def execBltsH (oe : Bool) (s : State) : Host.Outcome State Fault Refusal := runBlit 5#3 oe s

/-- BLTS.V: key 6, ScaledStraight, rows bottom to top (R151). -/
def execBltsV (oe : Bool) (s : State) : Host.Outcome State Fault Refusal := runBlit 6#3 oe s

/-- BLTS.HV: key 7, ScaledMirrored, rows bottom to top (R152). -/
def execBltsHV (oe : Bool) (s : State) : Host.Outcome State Fault Refusal := runBlit 7#3 oe s

end Sys2Proof.Machine
end

