-- ==== Sys2Proof/Machine/HostPort.lean ====
section
/-! DEFINITION. The host interface (44_host_interface.md R170 to R178): register writes, register reads, GO, and the even write of
START. -/

namespace Sys2Proof.Machine

/-- A register write (R171): that register and nothing else. -/
def hostWrite (r : RegName) (v : Word) (s : State) : Host.Outcome State Fault Refusal :=
  .next (s.withRegs (writeReg r v s.regs))

/-- A register read (R172): the host is answered, and nothing else happens. -/
def hostRead (r : RegName) (s : State) : Host.Outcome State Fault Refusal :=
  .next (s.withReply (.word (readReg r s.regs)))

/-- WR SRC_BASE (R171, R22). -/
def execWrSrcBase (value : Word) (s : State) : Host.Outcome State Fault Refusal := hostWrite .srcBase value s

/-- WR SRC_W (R171, R23). -/
def execWrSrcW (value : Word) (s : State) : Host.Outcome State Fault Refusal := hostWrite .srcW value s

/-- WR SRC_H (R171, R24). -/
def execWrSrcH (value : Word) (s : State) : Host.Outcome State Fault Refusal := hostWrite .srcH value s

/-- WR SRC_STRIDE (R171, R25). -/
def execWrSrcStride (value : Word) (s : State) : Host.Outcome State Fault Refusal := hostWrite .srcStride value s

/-- WR SRC_X (R171, R26). -/
def execWrSrcX (value : Word) (s : State) : Host.Outcome State Fault Refusal := hostWrite .srcX value s

/-- WR SRC_Y (R171, R27). -/
def execWrSrcY (value : Word) (s : State) : Host.Outcome State Fault Refusal := hostWrite .srcY value s

/-- WR DST_X (R171, R28). -/
def execWrDstX (value : Word) (s : State) : Host.Outcome State Fault Refusal := hostWrite .dstX value s

/-- WR DST_Y (R171, R29). -/
def execWrDstY (value : Word) (s : State) : Host.Outcome State Fault Refusal := hostWrite .dstY value s

/-- WR DST_W (R171, R30). -/
def execWrDstW (value : Word) (s : State) : Host.Outcome State Fault Refusal := hostWrite .dstW value s

/-- WR DST_H (R171, R31). -/
def execWrDstH (value : Word) (s : State) : Host.Outcome State Fault Refusal := hostWrite .dstH value s

/-- WR SCALE (R171, R32). -/
def execWrScale (value : Word) (s : State) : Host.Outcome State Fault Refusal := hostWrite .scale value s

/-- WR FLAGS (R171, R33). -/
def execWrFlags (value : Word) (s : State) : Host.Outcome State Fault Refusal := hostWrite .flags value s

/-- WR FB_BASE (R171, R34). -/
def execWrFbBase (value : Word) (s : State) : Host.Outcome State Fault Refusal := hostWrite .fbBase value s

/-- WR FB_PITCH (R171, R35). -/
def execWrFbPitch (value : Word) (s : State) : Host.Outcome State Fault Refusal := hostWrite .fbPitch value s

/-- WR CTRL (R171, R36). -/
def execWrCtrl (value : Word) (s : State) : Host.Outcome State Fault Refusal := hostWrite .ctrl value s

/-- GO (R173): the blit operation that FLAGS selects (R72, R73, R140), to completion. -/
def execGo (s : State) : Host.Outcome State Fault Refusal :=
  let f := readReg .flags s.regs
  match (flagsKey f).toNat with
  | 0 => execBlt (flagsOE f) s
  | 1 => execBltH (flagsOE f) s
  | 2 => execBltV (flagsOE f) s
  | 3 => execBltHV (flagsOE f) s
  | 4 => execBlts (flagsOE f) s
  | 5 => execBltsH (flagsOE f) s
  | 6 => execBltsV (flagsOE f) s
  | _ => execBltsHV (flagsOE f) s

/-- WR START with an even value (R174): no snapshot, no blit, no state change. -/
def execWrStartEven (s : State) : Host.Outcome State Fault Refusal := .next s

/-- RD SRC_BASE (R172, R22). -/
def execRdSrcBase (s : State) : Host.Outcome State Fault Refusal := hostRead .srcBase s

/-- RD SRC_W (R172, R23). -/
def execRdSrcW (s : State) : Host.Outcome State Fault Refusal := hostRead .srcW s

/-- RD SRC_H (R172, R24). -/
def execRdSrcH (s : State) : Host.Outcome State Fault Refusal := hostRead .srcH s

/-- RD SRC_STRIDE (R172, R25). -/
def execRdSrcStride (s : State) : Host.Outcome State Fault Refusal := hostRead .srcStride s

/-- RD SRC_X (R172, R26). -/
def execRdSrcX (s : State) : Host.Outcome State Fault Refusal := hostRead .srcX s

/-- RD SRC_Y (R172, R27). -/
def execRdSrcY (s : State) : Host.Outcome State Fault Refusal := hostRead .srcY s

/-- RD DST_X (R172, R28). -/
def execRdDstX (s : State) : Host.Outcome State Fault Refusal := hostRead .dstX s

/-- RD DST_Y (R172, R29). -/
def execRdDstY (s : State) : Host.Outcome State Fault Refusal := hostRead .dstY s

/-- RD DST_W (R172, R30). -/
def execRdDstW (s : State) : Host.Outcome State Fault Refusal := hostRead .dstW s

/-- RD DST_H (R172, R31). -/
def execRdDstH (s : State) : Host.Outcome State Fault Refusal := hostRead .dstH s

/-- RD SCALE (R172, R32). -/
def execRdScale (s : State) : Host.Outcome State Fault Refusal := hostRead .scale s

/-- RD FLAGS (R172, R33). -/
def execRdFlags (s : State) : Host.Outcome State Fault Refusal := hostRead .flags s

/-- RD FB_BASE (R172, R34). -/
def execRdFbBase (s : State) : Host.Outcome State Fault Refusal := hostRead .fbBase s

/-- RD FB_PITCH (R172, R35). -/
def execRdFbPitch (s : State) : Host.Outcome State Fault Refusal := hostRead .fbPitch s

/-- RD CTRL (R172, R36). -/
def execRdCtrl (s : State) : Host.Outcome State Fault Refusal := hostRead .ctrl s

/-- RD START (R172, R37). -/
def execRdStart (s : State) : Host.Outcome State Fault Refusal := hostRead .start s

end Sys2Proof.Machine
end

