-- ==== Sys2Proof/Machine/Dispatch.lean ====
section
/-! DEFINITION. Which meaning each instruction has. -/

namespace Sys2Proof.Machine

def exec (i : Instr) (s : State) : Host.Outcome State Fault Refusal :=
  match i with
  | .blt oe => Sys2Proof.Machine.execBlt oe s
  | .bltH oe => Sys2Proof.Machine.execBltH oe s
  | .bltV oe => Sys2Proof.Machine.execBltV oe s
  | .bltHV oe => Sys2Proof.Machine.execBltHV oe s
  | .blts oe => Sys2Proof.Machine.execBlts oe s
  | .bltsH oe => Sys2Proof.Machine.execBltsH oe s
  | .bltsV oe => Sys2Proof.Machine.execBltsV oe s
  | .bltsHV oe => Sys2Proof.Machine.execBltsHV oe s
  | .wrSrcBase value => Sys2Proof.Machine.execWrSrcBase value s
  | .wrSrcW value => Sys2Proof.Machine.execWrSrcW value s
  | .wrSrcH value => Sys2Proof.Machine.execWrSrcH value s
  | .wrSrcStride value => Sys2Proof.Machine.execWrSrcStride value s
  | .wrSrcX value => Sys2Proof.Machine.execWrSrcX value s
  | .wrSrcY value => Sys2Proof.Machine.execWrSrcY value s
  | .wrDstX value => Sys2Proof.Machine.execWrDstX value s
  | .wrDstY value => Sys2Proof.Machine.execWrDstY value s
  | .wrDstW value => Sys2Proof.Machine.execWrDstW value s
  | .wrDstH value => Sys2Proof.Machine.execWrDstH value s
  | .wrScale value => Sys2Proof.Machine.execWrScale value s
  | .wrFlags value => Sys2Proof.Machine.execWrFlags value s
  | .wrFbBase value => Sys2Proof.Machine.execWrFbBase value s
  | .wrFbPitch value => Sys2Proof.Machine.execWrFbPitch value s
  | .wrCtrl value => Sys2Proof.Machine.execWrCtrl value s
  | .go => Sys2Proof.Machine.execGo s
  | .wrStartEven => Sys2Proof.Machine.execWrStartEven s
  | .rdSrcBase => Sys2Proof.Machine.execRdSrcBase s
  | .rdSrcW => Sys2Proof.Machine.execRdSrcW s
  | .rdSrcH => Sys2Proof.Machine.execRdSrcH s
  | .rdSrcStride => Sys2Proof.Machine.execRdSrcStride s
  | .rdSrcX => Sys2Proof.Machine.execRdSrcX s
  | .rdSrcY => Sys2Proof.Machine.execRdSrcY s
  | .rdDstX => Sys2Proof.Machine.execRdDstX s
  | .rdDstY => Sys2Proof.Machine.execRdDstY s
  | .rdDstW => Sys2Proof.Machine.execRdDstW s
  | .rdDstH => Sys2Proof.Machine.execRdDstH s
  | .rdScale => Sys2Proof.Machine.execRdScale s
  | .rdFlags => Sys2Proof.Machine.execRdFlags s
  | .rdFbBase => Sys2Proof.Machine.execRdFbBase s
  | .rdFbPitch => Sys2Proof.Machine.execRdFbPitch s
  | .rdCtrl => Sys2Proof.Machine.execRdCtrl s
  | .rdStart => Sys2Proof.Machine.execRdStart s

end Sys2Proof.Machine
end

