-- ==== Sys2Proof/Machine/HostStep.lean ====
section
/-! DEFINITION. What an idle engine's step does: the host's next operation is performed (44_host_interface.md R170). -/

namespace Sys2Proof.Machine

/-- A host access to the register window: the instruction it decodes to, refused if it is no aligned word (R170, R176). -/
def performAccess (a : Access) (s : State) : Host.Outcome State Fault Refusal :=
  if a.wellFormed then
    match decodeTW a.tw with
    | .ok i => exec i s
    | .error _ => .refused .accessShape
  else .refused .accessShape

/-- One host operation. -/
def performOp (op : HostOp) (s : State) : Host.Outcome State Fault Refusal :=
  match op with
  | .access a => performAccess a s
  | .storeByte a b => hostStore a b s
  | .loadByte a => hostLoad a s
  | .reset => .next (resetEngine s)

/-- The idle engine: the host's next operation, taken off its list; with none the state stays (00_scope.md R12; log 5). -/
def stepIdle (s : State) : Host.Outcome State Fault Refusal :=
  match s.host with
  | [] => .next s
  | op :: rest => performOp op (s.withHost rest)

/-- The host about to perform one instruction (log 4): a transaction word is its next access; a FLAGS word stands in FLAGS and GO
is its next access (spec/opcode_table.json: "executed when GO is issued with this value in FLAGS"). -/
def placeCodeWord (c : CodeWord) (s : State) : State :=
  match c with
  | .tw t => { s with run := none, host := .access ⟨.word, t⟩ :: s.host }
  | .cmd f =>
    { s with
      run := none
      regs := writeReg .flags f s.regs
      host := .access ⟨.word, mkTW true 0x3C#6 1#32⟩ :: s.host }

end Sys2Proof.Machine
end

