-- ==== Sys2Proof/Machine/Step.lean ====
section
/-! DEFINITION. One step of the machine: a blit in progress is finished while the host is held (44_host_interface.md R173);
otherwise the host's next operation is performed (R170). -/

namespace Sys2Proof.Machine

/-- The step. -/
def step (s : State) : Host.Outcome State Fault Refusal :=
  match s.run with
  | some r => resumeBlit r s
  | none => stepIdle s

/-- The state in which the next step runs the instruction of a table row's word (logs 4 and 12). -/
def State.withFetchWord (s : State) (nbits w : Nat) : State :=
  match tableWord nbits w with
  | some c => placeCodeWord c s
  | none => s

end Sys2Proof.Machine
end

