-- ==== Sys2Proof/Machine/FastPaths.lean ====
section
/-! DEFINITION. The fast paths' gates (41_scanline_copy.md R103, R105, R106) and the wide path (R103). No kernel uses them: a
row's path is not observable (R107), and the slack of the packed paths is R108's. They stand here so that R107 and R108's
"more rows than the hardware" can be stated. -/

namespace Sys2Proof.Machine

/-- The gate of the wide path (R103). -/
def wideGate (w : PixelWidth) (r : Run) : Bool :=
  w == .w16 && r.cmd.dstW.toNat % 4 == 0 && aligned r.sp 4 && aligned r.dp 4

/-- The gate of the packed path of StraightCopy (R105). -/
def packedStraightGate (w : PixelWidth) (r : Run) : Bool :=
  w == .w8 && r.cmd.dstX.getLsbD 0 && decide (4 < r.cmd.dstW.toNat) && aligned r.sp 2 && flagsOE r.cmd.flags

/-- The gate of the packed path of MirroredCopy (R106). The source does not pin which destination edge is odd (N9): it is an
argument. -/
def packedMirroredGate (w : PixelWidth) (edge : Word) (r : Run) : Bool :=
  w == .w8 && edge.getLsbD 0 && decide (3 < r.cmd.dstW.toNat) && !r.cmd.srcX.getLsbD 0 && flagsOE r.cmd.flags

/-- One double-wide transfer: four bytes, two adjacent units, `4 * n` bytes into the row (R56, R103). -/
def wideTransfer (r : Run) (m : Memory) (n : Nat) : Option Memory :=
  match memRead m (r.sp + 4 * BitVec.ofNat 32 n) 4 with
  | some b => some (memWrite m (r.dp + 4 * BitVec.ofNat 32 n) b)
  | none => none

/-- A row of StraightCopy by the wide path: two units at a time, the lower-addressed unit at the lower address (R103). -/
def wideRow (r : Run) (m : Memory) : Option Memory :=
  (List.range (r.cmd.dstW.toNat / 2)).foldlM (wideTransfer r) m

end Sys2Proof.Machine
end

