-- ==== Sys2Proof/Safety.lean ====
section
/-! DEFINITION. The terms the statements are made of: the invariant of the state, when a blit operation copies, and what a copy
leaves behind. -/

namespace Sys2Proof.Machine

/-- What every step keeps: memory is in canonical form, the reserved bits of FLAGS and CTRL hold 0 (R33, R36, R79), and the position
of a blit in progress is in R40's range. -/
abbrev State.Inv (s : State) : Prop :=
  s.mem.wf ∧ s.regs.cmd.flags &&& ~~~flagsMask = 0#32 ∧ s.regs.ctrl &&& ~~~ctrlMask = 0#32 ∧
    s.run.all Run.inRange = true

/-- One instruction after another. -/
def andThen (o : Host.Outcome State Fault Refusal) (f : State → Host.Outcome State Fault Refusal) :
    Host.Outcome State Fault Refusal :=
  match o with
  | .next t => f t
  | .fault e => .fault e
  | .refused e => .refused e

/-- Whether a blit refuses its SCALE: it is scaled, it reaches the division (R143 steps 1 and 2), and SCALE is not in `[2, 2^31)`
(R123). -/
def ScaleRefused (key : BitVec 3) (s : State) : Prop :=
  key.getLsbD 2 = true ∧
  ((snapshotCtx s.regs).suppressDraw = false ∨ s.cfg.divWhenSuppressed = true) ∧
  (s.regs.cmd.scale.toNat < 2 ∨ 2 ^ 31 ≤ s.regs.cmd.scale.toNat)

/-- The operation reaches step 5 of `Blit` (R143): not suppressed, a positive area, and `step` its reciprocal where it is
scaled. -/
structure ReachesCopy (key : BitVec 3) (oe : Bool) (s : State) (step : Word) : Prop where
  drawing  : (snapshotCtx s.regs).suppressDraw = false
  width    : s.regs.cmd.dstW ≠ 0#32
  height   : s.regs.cmd.dstH ≠ 0#32
  dividing : stepOf (commandFor key oe s) = some step

/-- The operation copies: it reaches step 5 and its command is in `Legal` (R182). -/
structure BlitRuns (key : BitVec 3) (oe : Bool) (s : State) (step : Word) : Prop extends ReachesCopy key oe s step where
  vouched : legal s.cfg (commandFor key oe s) (snapshotCtx s.regs) s.mem step = true

/-- The unit at an address. -/
def unitAt (s : State) (a : Word) : Option (List Byte) := memRead s.mem a (unitSize s.cfg.width)

/-- Nothing but memory differs, and so many slack draws were used. -/
def OnlyMemoryChanged (s t : State) (used : Nat) : Prop := t = { s with mem := t.mem, draws := s.draws + used }

/-- SCALE is 1.0 and the region lies inside a bitmap whose dimensions are powers of two of at most `2^16` (R132's premises). -/
structure AtScaleOne (s : State) : Prop where
  scale  : s.regs.cmd.scale = 0x00010000#32
  width  : ∃ k ≤ 16, s.regs.cmd.srcW.toNat = 2 ^ k
  height : ∃ k ≤ 16, s.regs.cmd.srcH.toNat = 2 ^ k
  across : s.regs.cmd.srcX.toNat + s.regs.cmd.dstW.toNat ≤ s.regs.cmd.srcW.toNat
  down   : s.regs.cmd.srcY.toNat + s.regs.cmd.dstH.toNat ≤ s.regs.cmd.srcH.toNat

/-- No two destination units of the blit share an address (R153's proviso). -/
def UnitsDistinct (w : PixelWidth) (cmd : Cmd) (ctx : Ctx) : Prop :=
  ∀ j < cmd.dstH.toNat, ∀ i < cmd.dstW.toNat, ∀ j' < cmd.dstH.toNat, ∀ i' < cmd.dstW.toNat,
    dstUnitAddr w cmd ctx j i = dstUnitAddr w cmd ctx j' i' → j = j' ∧ i = i'

/-- No slack unit of the blit lies in its own rectangle. -/
def SlackOutside (w : PixelWidth) (cmd : Cmd) (ctx : Ctx) : Prop :=
  slackPermitted w cmd = true →
    ∀ j < cmd.dstH.toNat, ∀ i < cmd.dstW.toNat, ∀ j' < cmd.dstH.toNat,
      dstUnitAddr w cmd ctx j i ≠ slackAddr w cmd ctx j'

/-- After the blit each destination unit holds what its source unit held, every byte outside them and outside `slack` is
unchanged, and nothing but memory differs. -/
structure Copies (s t : State) (cmd : Cmd) (dst src : Nat → Nat → Word) (slack : List Word) (used : Nat) : Prop where
  delivered : ∀ j < cmd.dstH.toNat, ∀ i < cmd.dstW.toNat, unitAt t (dst j i) = unitAt s (src j i)
  others    : ∀ a, (∀ j < cmd.dstH.toNat, ∀ i < cmd.dstW.toNat, a ∉ unitBytes s.cfg.width (dst j i)) →
                a ∉ slack → readByte t.mem a = readByte s.mem a
  rest      : OnlyMemoryChanged s t used

end Sys2Proof.Machine
end

