-- ==== Sys2Proof/Certificates/Slice0/Obligations.lean ====
section
/-! DEFINITION. The statements for the provers. Each docstring names the rule of spec/ it formalises. -/

open Sys2Proof Sys2Proof.Machine

/-! Encoding. -/

/-- R70 to R73, R78: decoding an encoded instruction gives it back, for every instruction and every operand. -/
def Obligations.DecodeEncodeRoundTrip : Prop :=
  ∀ i : Instr, decode (encode i) = .ok i

/-- R77, R78: encoding what was decoded gives the word back, in every bit that is not ignored. -/
def Obligations.DecodedTransactionEncodesBack : Prop :=
  ∀ (t : TW) (i : Instr), decodeTW t = .ok i →
    ∃ t', encode i = .tw t' ∧ twWrite t' = twWrite t ∧ twOffset t' = twOffset t ∧
      (twWrite t = true → twOffset t ≠ 0x3C#6 → twData t' = twData t) ∧
      (twWrite t = true → twOffset t = 0x3C#6 → (twData t').getLsbD 0 = (twData t).getLsbD 0)

/-- R77, R78, R79: the data of a read, bits 31:1 of START's data, and the reserved bits of a FLAGS word do not matter. -/
def Obligations.IgnoredBitsDoNotMatter : Prop :=
  (∀ (r : RegName) (d : Word), decodeTW (mkTW false (regOffset r) d) = .ok (readInstr r)) ∧
  (∀ d : Word, decodeTW (mkTW true 0x3C#6 d) = .ok (if d.getLsbD 0 = true then .go else .wrStartEven)) ∧
  (∀ f : Word, decodeFlags f = decodeFlags (f &&& 0x0000000F#32))

/-- R71, R78: words written out from spec/opcode_table.json and 95_test_vectors.md decode to their instructions. -/
def Obligations.SampleWordsDecode : Prop :=
  decodeTableWord 32 0x00000003 = some (.bltHV false) ∧ decodeTableWord 32 0x0000000C = some (.blts true) ∧
  decodeTableWord 40 0x4000001000 = some (.wrSrcBase 0x00001000#32) ∧
  decodeTableWord 40 0x7400000008 = some (.wrFbPitch 0x00000008#32) ∧
  decodeTableWord 40 0x7C00000001 = some .go ∧ decodeTableWord 40 0x7C00000000 = some .wrStartEven ∧
  decodeTableWord 40 0x2C00000000 = some .rdFlags ∧ decodeTableWord 40 0x4200000000 = none

/-! Steps. -/

/-- R170: an idle engine's step performs the host's next access: `exec` of the decoded instruction, the access taken off the
host's list. -/
def Obligations.StepRunsDecodedAccess : Prop :=
  ∀ (s : State) (a : Access) (rest : List HostOp) (i : Instr),
    s.run = none → s.host = .access a :: rest → a.wellFormed = true → decodeTW a.tw = .ok i →
    step s = exec i (s.withHost rest)

/-- R73, R82, log 4: a FLAGS word runs as the operation it selects, by way of GO. -/
def Obligations.StepRunsFlagsWord : Prop :=
  ∀ (s : State) (f : Word),
    step (s.withFetchWord 32 f.toNat) =
      exec (decodeFlags f) { s with run := none, regs := writeReg .flags f s.regs }

/-- R176: an access that is no aligned 32-bit word is refused, and every other one is an instruction (R80). -/
def Obligations.OnlyAlignedWordAccessesRun : Prop :=
  (∀ (s : State) (a : Access) (rest : List HostOp), s.run = none → s.host = .access a :: rest →
    (a.width ≠ .word ∨ a.offset.toNat % 4 ≠ 0) → step s = .refused .accessShape) ∧
  (∀ a : Access, a.width = .word → a.offset.toNat % 4 = 0 → a.wellFormed = true ∧ ∃ i, decodeTW a.tw = .ok i)

/-- R12, log 5: an idle engine whose host does nothing stays as it is. The model's choice of how to say it. -/
def Obligations.IdleEngineStays : Prop :=
  ∀ s : State, s.run = none → s.host = [] → step s = .next s

/-- Log 8 (DEDUCED), the model's reading and not a rule of the spec: a state may hold a blit in progress, no step enters one, and one
step finishes it. In such a state the host is held, as R173, R206 and R207 ask of a blit: that step takes none of the host's
operations and changes no register. -/
def Obligations.HostIsHeldDuringBlit : Prop :=
  ∀ (s t : State) (r : Run), s.run = some r → step s = .next t →
    t.host = s.host ∧ t.regs = s.regs ∧ t.reply = s.reply ∧ t.cfg = s.cfg ∧ t.run = none

/-- Log 8 (DEDUCED), the model's reading and not a rule of the spec: a blit is one step, so after every step the engine is idle. R40
and R173 say of the hardware that no agent observes another position. -/
def Obligations.EngineIsIdleAfterEveryStep : Prop :=
  ∀ s t : State, step s = .next t → t.run = none

/-- R202: reset leaves memory alone. R200: every register is 0. R201: the engine is idle. That reset is an operation of the host, and
that it leaves the parameters, the last reply, the slack draws and the rest of the host's list as they were, is the model's choice
(log 9, DESIGN CHOICE). -/
def Obligations.ResetKeepsMemory : Prop :=
  ∀ (s : State) (rest : List HostOp), s.run = none → s.host = .reset :: rest →
    ∃ t, step s = .next t ∧ t.mem = s.mem ∧ (∀ r, readReg r t.regs = 0#32) ∧ t.run = none ∧
      t.cfg = s.cfg ∧ t.reply = s.reply ∧ t.draws = s.draws ∧ t.host = rest

/-- R200, R46, R201: the reset state. -/
def Obligations.ResetRegistersReadZero : Prop :=
  (∀ r, readReg r State.reset.regs = 0#32) ∧ State.reset.run = none

/-- R203: GO straight after reset does nothing, whatever memory and parameters are. -/
def Obligations.GoAfterResetDoesNothing : Prop :=
  ∀ (m : Memory) (c : Config),
    exec .go { State.reset with mem := m, cfg := c } = .next { State.reset with mem := m, cfg := c }

/-! The register port. -/

/-- R171: a register write stores its value, without reserved bits, in that register and changes nothing else. For every register
but START. -/
def Obligations.WriteStoresItsRegister : Prop :=
  ∀ (r : RegName) (v : Word) (s : State), r ≠ .start →
    encode (writeInstr r v) = .tw (mkTW true (regOffset r) v) ∧
    ∃ t, exec (writeInstr r v) s = .next t ∧
      readReg r t.regs =
        (match r with
          | .flags => v &&& 0x0000000F#32
          | .ctrl => v &&& 0x00000001#32
          | _ => v) ∧
      (∀ r', r' ≠ r → readReg r' t.regs = readReg r' s.regs) ∧ t = s.withRegs t.regs

/-- R174: a write of START with an even value has no effect. -/
def Obligations.EvenStartWriteHasNoEffect : Prop :=
  ∀ (v : Word) (s : State), v.getLsbD 0 = false →
    decodeTW (mkTW true 0x3C#6 v) = .ok .wrStartEven ∧ exec .wrStartEven s = .next s

/-- R172: a register read, whatever its data, answers START with 0 and any other register with its contents, and changes nothing
else. -/
def Obligations.ReadAnswersWithRegister : Prop :=
  ∀ (r : RegName) (d : Word) (s : State),
    decodeTW (mkTW false (regOffset r) d) = .ok (readInstr r) ∧
    exec (readInstr r) s = .next (s.withReply (.word (if r = .start then 0#32 else readReg r s.regs)))

/-- R79: what is written to FLAGS and CTRL reads back with every reserved bit 0. -/
def Obligations.ReservedBitsReadZero : Prop :=
  ∀ (v : Word) (s : State),
    (∃ t, andThen (exec (.wrFlags v) s) (exec .rdFlags) = .next t ∧ t.reply = .word (v &&& 0x0000000F#32)) ∧
    (∃ t, andThen (exec (.wrCtrl v) s) (exec .rdCtrl) = .next t ∧ t.reply = .word (v &&& 0x00000001#32)) ∧
    (readReg .flags s.regs &&& 0xFFFFFFF0#32 = 0#32) ∧ (readReg .ctrl s.regs &&& 0xFFFFFFFE#32 = 0#32)

/-- R178: writes of different registers commute, and of two writes of one register the last counts. -/
def Obligations.RegisterWritesCommute : Prop :=
  (∀ (r r' : RegName) (v v' : Word) (s : State), r ≠ r' → r ≠ .start → r' ≠ .start →
    andThen (exec (writeInstr r v) s) (exec (writeInstr r' v')) =
      andThen (exec (writeInstr r' v') s) (exec (writeInstr r v))) ∧
  (∀ (r : RegName) (v v' : Word) (s : State), r ≠ .start →
    andThen (exec (writeInstr r v) s) (exec (writeInstr r v')) = exec (writeInstr r v') s)

/-! GO. -/

/-- R72, R73, R140, R155: GO runs the operation that FLAGS selects. -/
def Obligations.GoRunsTheOperationFlagsSelects : Prop :=
  ∀ s : State, exec .go s = exec (decodeFlags (readReg .flags s.regs)) s

/-- R173: GO runs `Blit` on the snapshots, memory is what it leaves, no register is written, and where `Blit` refuses the model
refuses. -/
def Obligations.GoRunsBlitOnSnapshots : Prop :=
  ∀ s : State,
    (∀ m used, blit s.cfg (snapshotCmd s.regs) (snapshotCtx s.regs) s.mem (slackDraws s) = .ok (m, used) →
      exec .go s = .next { s with mem := m, draws := s.draws + used }) ∧
    (∀ e, blit s.cfg (snapshotCmd s.regs) (snapshotCtx s.regs) s.mem (slackDraws s) = .error e →
      exec .go s = .refused e)

/-- R11, R156, R173: GO completes for every command in `Legal` that draws. -/
def Obligations.GoCompletes : Prop :=
  ∀ (s : State) (step : Word),
    BlitRuns (flagsKey (readReg .flags s.regs)) (flagsOE (readReg .flags s.regs)) s step →
    ∃ t, exec .go s = .next t ∧ OnlyMemoryChanged s t (slackRows s.cfg.width (snapshotCmd s.regs))

/-! The exits of `Blit` (R143, R144). -/

/-- R144 (a), R175: a suppressed blit changes nothing, for every operation, unless it refuses its SCALE. -/
def Obligations.SuppressedBlitChangesNothing : Prop :=
  ∀ (key : BitVec 3) (oe : Bool) (s : State), (snapshotCtx s.regs).suppressDraw = true → ¬ ScaleRefused key s →
    exec (blitInstr key oe) s = .next s

/-- R144 (a), R181: a zero-area blit changes nothing, for every operation, unless it refuses its SCALE. -/
def Obligations.ZeroAreaBlitChangesNothing : Prop :=
  ∀ (key : BitVec 3) (oe : Bool) (s : State), s.regs.cmd.dstW = 0#32 ∨ s.regs.cmd.dstH = 0#32 → ¬ ScaleRefused key s →
    exec (blitInstr key oe) s = .next s

/-- R123, R124, R144 (b): a scaled blit that divides by a SCALE out of range is refused, suppressed or of zero area or not. -/
def Obligations.ScaleOutOfRangeIsRefused : Prop :=
  ∀ (key : BitVec 3) (oe : Bool) (s : State), ScaleRefused key s →
    exec (blitInstr key oe) s = .refused .scaleOutOfRange

/-- R182, R183: a command that would copy and breaks one of LG2 to LG6 is refused. -/
def Obligations.CommandOutsideLegalIsRefused : Prop :=
  ∀ (key : BitVec 3) (oe : Bool) (s : State) (step : Word), ReachesCopy key oe s step →
    let cmd := commandFor key oe s
    let ctx := snapshotCtx s.regs
    let w := s.cfg.width
    ((scaled cmd.flags = true ∧ ((∀ k < 32, cmd.srcW.toNat ≠ 2 ^ k) ∨ ∀ k < 32, cmd.srcH.toNat ≠ 2 ^ k)) ∨
      (scaled cmd.flags = false ∧ (cmd.srcW.toNat < cmd.srcX.toNat + cmd.dstW.toNat ∨
        cmd.srcH.toNat < cmd.srcY.toNat + cmd.dstH.toNat)) ∨
      cmd.srcBase.toNat % unitSize w ≠ 0 ∨ ctx.fbBase.toNat % unitSize w ≠ 0 ∨
      (∃ a, a ∈ readSet w cmd step ∧ a ∈ writeSet w cmd ctx) ∨
      (∃ a ∈ readSet w cmd step, platformReads s.cfg a = false ∨ readByte s.mem a = none) ∨
      (∃ a ∈ writeSet w cmd ctx, platformWrites s.cfg a = false)) →
    exec (blitInstr key oe) s = .refused .outsideLegal

/-- R11, R39, R156: a blit in `Legal` that draws completes, and nothing but memory differs. -/
def Obligations.LegalBlitCompletes : Prop :=
  ∀ (key : BitVec 3) (oe : Bool) (s : State) (step : Word), BlitRuns key oe s step →
    ∃ t, exec (blitInstr key oe) s = .next t ∧ OnlyMemoryChanged s t (slackRows s.cfg.width (commandFor key oe s))

/-! The eight operations (R145 to R152): the encoding, the effect where the operation copies, and the corner cases. The effect is
for destination units and slack units that are distinct; ClosedForm below says what happens where they collide. -/

/-- R145: BLT copies the rectangle; the slack unit of a row is right of it. -/
def Obligations.BltCopiesRectangle : Prop :=
  ∀ (s : State) (oe : Bool),
    let cmd := commandFor 0#3 oe s
    let ctx := snapshotCtx s.regs
    let w := s.cfg.width
    encode (.blt oe) = .cmd (if oe = true then 0x00000008#32 else 0x00000000#32) ∧
    (∀ step : Word, BlitRuns 0#3 oe s step → UnitsDistinct w cmd ctx → SlackOutside w cmd ctx →
      ∃ t, exec (.blt oe) s = .next t ∧
        Copies s t cmd
          (fun j i => dstAddr w ctx (cmd.dstY + BitVec.ofNat 32 j) (cmd.dstX + BitVec.ofNat 32 i))
          (fun j i => srcAddr w cmd (cmd.srcY + BitVec.ofNat 32 j) (cmd.srcX + BitVec.ofNat 32 i))
          (slackBytes w cmd ctx) (slackRows w cmd))

/-- R146: BLT.H mirrors every row; the slack unit of a row is left of it. One column wide and without slack it is BLT. -/
def Obligations.BltHMirrorsColumns : Prop :=
  ∀ (s : State) (oe : Bool),
    let cmd := commandFor 1#3 oe s
    let ctx := snapshotCtx s.regs
    let w := s.cfg.width
    encode (.bltH oe) = .cmd (if oe = true then 0x00000009#32 else 0x00000001#32) ∧
    (∀ step : Word, BlitRuns 1#3 oe s step → UnitsDistinct w cmd ctx → SlackOutside w cmd ctx →
      ∃ t, exec (.bltH oe) s = .next t ∧
        Copies s t cmd
          (fun j i => dstAddr w ctx (cmd.dstY + BitVec.ofNat 32 j) (cmd.dstX + cmd.dstW - 1 - BitVec.ofNat 32 i))
          (fun j i => srcAddr w cmd (cmd.srcY + BitVec.ofNat 32 j) (cmd.srcX + BitVec.ofNat 32 i))
          (slackBytes w cmd ctx) (slackRows w cmd)) ∧
    (slackPermitted w cmd = false → s.regs.cmd.dstW = 1#32 → exec (.bltH oe) s = exec (.blt oe) s)

/-- R147: BLT.V turns the rows upside down. One row high it is BLT. -/
def Obligations.BltVFlipsRows : Prop :=
  ∀ (s : State) (oe : Bool),
    let cmd := commandFor 2#3 oe s
    let ctx := snapshotCtx s.regs
    let w := s.cfg.width
    encode (.bltV oe) = .cmd (if oe = true then 0x0000000A#32 else 0x00000002#32) ∧
    (∀ step : Word, BlitRuns 2#3 oe s step → UnitsDistinct w cmd ctx → SlackOutside w cmd ctx →
      ∃ t, exec (.bltV oe) s = .next t ∧
        Copies s t cmd
          (fun j i => dstAddr w ctx (cmd.dstY + cmd.dstH - 1 - BitVec.ofNat 32 j) (cmd.dstX + BitVec.ofNat 32 i))
          (fun j i => srcAddr w cmd (cmd.srcY + BitVec.ofNat 32 j) (cmd.srcX + BitVec.ofNat 32 i))
          (slackBytes w cmd ctx) (slackRows w cmd)) ∧
    (s.regs.cmd.dstH = 1#32 → exec (.bltV oe) s = exec (.blt oe) s)

/-- R148: BLT.HV turns the rectangle by half a turn. -/
def Obligations.BltHVTurnsRectangle : Prop :=
  ∀ (s : State) (oe : Bool),
    let cmd := commandFor 3#3 oe s
    let ctx := snapshotCtx s.regs
    let w := s.cfg.width
    encode (.bltHV oe) = .cmd (if oe = true then 0x0000000B#32 else 0x00000003#32) ∧
    (∀ step : Word, BlitRuns 3#3 oe s step → UnitsDistinct w cmd ctx → SlackOutside w cmd ctx →
      ∃ t, exec (.bltHV oe) s = .next t ∧
        Copies s t cmd
          (fun j i => dstAddr w ctx (cmd.dstY + cmd.dstH - 1 - BitVec.ofNat 32 j) (cmd.dstX + cmd.dstW - 1 - BitVec.ofNat 32 i))
          (fun j i => srcAddr w cmd (cmd.srcY + BitVec.ofNat 32 j) (cmd.srcX + BitVec.ofNat 32 i))
          (slackBytes w cmd ctx) (slackRows w cmd))

/-- R149: BLTS samples the source; SCALE out of range is refused; at SCALE = 1.0 it is BLT; OVERWRITE_EDGES is ignored. -/
def Obligations.BltsSamplesRectangle : Prop :=
  ∀ (s : State) (oe : Bool),
    let cmd := commandFor 4#3 oe s
    let ctx := snapshotCtx s.regs
    let w := s.cfg.width
    encode (.blts oe) = .cmd (if oe = true then 0x0000000C#32 else 0x00000004#32) ∧
    (∀ step : Word, BlitRuns 4#3 oe s step → UnitsDistinct w cmd ctx →
      ∃ t, exec (.blts oe) s = .next t ∧
        Copies s t cmd
          (fun j i => dstAddr w ctx (cmd.dstY + BitVec.ofNat 32 j) (cmd.dstX + BitVec.ofNat 32 i))
          (fun j i => srcAddr w cmd (srcRow cmd step j) (srcCol cmd step i)) [] 0) ∧
    (ScaleRefused 4#3 s → exec (.blts oe) s = .refused .scaleOutOfRange) ∧
    (AtScaleOne s → exec (.blts oe) s = exec (.blt false) s) ∧
    exec (.blts oe) s = exec (.blts false) s

/-- R150: BLTS.H samples and mirrors; its corner cases are those of BLTS. -/
def Obligations.BltsHSamplesMirrored : Prop :=
  ∀ (s : State) (oe : Bool),
    let cmd := commandFor 5#3 oe s
    let ctx := snapshotCtx s.regs
    let w := s.cfg.width
    encode (.bltsH oe) = .cmd (if oe = true then 0x0000000D#32 else 0x00000005#32) ∧
    (∀ step : Word, BlitRuns 5#3 oe s step → UnitsDistinct w cmd ctx →
      ∃ t, exec (.bltsH oe) s = .next t ∧
        Copies s t cmd
          (fun j i => dstAddr w ctx (cmd.dstY + BitVec.ofNat 32 j) (cmd.dstX + cmd.dstW - 1 - BitVec.ofNat 32 i))
          (fun j i => srcAddr w cmd (srcRow cmd step j) (srcCol cmd step i)) [] 0) ∧
    (ScaleRefused 5#3 s → exec (.bltsH oe) s = .refused .scaleOutOfRange) ∧
    (AtScaleOne s → exec (.bltsH oe) s = exec (.bltH false) s) ∧
    exec (.bltsH oe) s = exec (.bltsH false) s

/-- R151: BLTS.V samples and turns the rows upside down; its corner cases are those of BLTS. -/
def Obligations.BltsVSamplesFlipped : Prop :=
  ∀ (s : State) (oe : Bool),
    let cmd := commandFor 6#3 oe s
    let ctx := snapshotCtx s.regs
    let w := s.cfg.width
    encode (.bltsV oe) = .cmd (if oe = true then 0x0000000E#32 else 0x00000006#32) ∧
    (∀ step : Word, BlitRuns 6#3 oe s step → UnitsDistinct w cmd ctx →
      ∃ t, exec (.bltsV oe) s = .next t ∧
        Copies s t cmd
          (fun j i => dstAddr w ctx (cmd.dstY + cmd.dstH - 1 - BitVec.ofNat 32 j) (cmd.dstX + BitVec.ofNat 32 i))
          (fun j i => srcAddr w cmd (srcRow cmd step j) (srcCol cmd step i)) [] 0) ∧
    (ScaleRefused 6#3 s → exec (.bltsV oe) s = .refused .scaleOutOfRange) ∧
    (AtScaleOne s → exec (.bltsV oe) s = exec (.bltV false) s) ∧
    exec (.bltsV oe) s = exec (.bltsV false) s

/-- R152: BLTS.HV samples and turns by half a turn; its corner cases are those of BLTS. -/
def Obligations.BltsHVSamplesTurned : Prop :=
  ∀ (s : State) (oe : Bool),
    let cmd := commandFor 7#3 oe s
    let ctx := snapshotCtx s.regs
    let w := s.cfg.width
    encode (.bltsHV oe) = .cmd (if oe = true then 0x0000000F#32 else 0x00000007#32) ∧
    (∀ step : Word, BlitRuns 7#3 oe s step → UnitsDistinct w cmd ctx →
      ∃ t, exec (.bltsHV oe) s = .next t ∧
        Copies s t cmd
          (fun j i => dstAddr w ctx (cmd.dstY + cmd.dstH - 1 - BitVec.ofNat 32 j) (cmd.dstX + cmd.dstW - 1 - BitVec.ofNat 32 i))
          (fun j i => srcAddr w cmd (srcRow cmd step j) (srcCol cmd step i)) [] 0) ∧
    (ScaleRefused 7#3 s → exec (.bltsHV oe) s = .refused .scaleOutOfRange) ∧
    (AtScaleOne s → exec (.bltsHV oe) s = exec (.bltHV false) s) ∧
    exec (.bltsHV oe) s = exec (.bltsHV false) s

/-- R153, R61, R60: the closed form, collisions included. A destination unit that no transfer later in the reference order and no
slack write of its own or a later row writes holds what its source unit held; every byte outside the rectangle and the slack units
is unchanged. That a unit keeps its value although the slack of an EARLIER row falls on it is no rule of the spec: it is the
model's reading (log 14, DEDUCED). -/
def Obligations.ClosedForm : Prop :=
  ∀ (key : BitVec 3) (oe : Bool) (s : State) (step : Word),
    let cmd := commandFor key oe s
    let ctx := snapshotCtx s.regs
    let w := s.cfg.width
    BlitRuns key oe s step →
    ∃ t, exec (blitInstr key oe) s = .next t ∧
      (∀ j < cmd.dstH.toNat, ∀ i < cmd.dstW.toNat,
        (∀ j' < cmd.dstH.toNat, ∀ i' < cmd.dstW.toNat, (j < j' ∨ j = j' ∧ i < i') →
          dstUnitAddr w cmd ctx j' i' ≠ dstUnitAddr w cmd ctx j i) →
        (slackPermitted w cmd = true → ∀ j' < cmd.dstH.toNat, j ≤ j' →
          slackAddr w cmd ctx j' ≠ dstUnitAddr w cmd ctx j i) →
        unitAt t (dstUnitAddr w cmd ctx j i) = unitAt s (srcUnitAddr w cmd step j i)) ∧
      (∀ a, a ∉ nominalBytes w cmd ctx → a ∉ slackBytes w cmd ctx → readByte t.mem a = readByte s.mem a)

/-! Slack (R108). -/

/-- R108: where slack is permitted the slack unit of a row is left alone or holds the value drawn, for every choice of draws; where
it is not, no byte outside the rectangle is written. -/
def Obligations.SlackIsLeftAloneOrDrawn : Prop :=
  ∀ (c : Config) (cmd : Cmd) (ctx : Ctx) (m m' : Memory) (draws : Nat → Option Byte) (used : Nat),
    blit c cmd ctx m draws = .ok (m', used) → ctx.suppressDraw = false → cmd.dstW ≠ 0#32 →
    (slackPermitted c.width cmd = true → ∀ j < cmd.dstH.toNat,
      slackAddr c.width cmd ctx j ∉ nominalBytes c.width cmd ctx →
      (∀ j' < cmd.dstH.toNat, slackAddr c.width cmd ctx j' = slackAddr c.width cmd ctx j → j' = j) →
      readByte m' (slackAddr c.width cmd ctx j) =
        (match draws j with
          | some x => some x
          | none => readByte m (slackAddr c.width cmd ctx j))) ∧
    (c.width = .w16 ∨ flagsOE cmd.flags = false ∨ scaled cmd.flags = true →
      ∀ a, a ∉ nominalBytes c.width cmd ctx → readByte m' a = readByte m a)

/-- R108, R105, R106: the gates of the packed paths open only where the model permits slack. -/
def Obligations.PackedGatesOpenOnlyWithSlack : Prop :=
  ∀ (w : PixelWidth) (edge : Word) (r : Run), scaled r.cmd.flags = false →
    (packedStraightGate w r = true ∨ packedMirroredGate w edge r = true) → slackPermitted w r.cmd = true

/-! What blits keep and ignore. -/

/-- R58, LG5 of R182: a blit leaves every byte it reads as it was. -/
def Obligations.SourceIsUnchanged : Prop :=
  ∀ (key : BitVec 3) (oe : Bool) (s t : State) (step : Word), BlitRuns key oe s step →
    exec (blitInstr key oe) s = .next t →
    ∀ a ∈ readSet s.cfg.width (commandFor key oe s) step, readByte t.mem a = readByte s.mem a

/-- R154, R38: blits with equal commands, contexts, source bytes and draws write equal bytes. -/
def Obligations.EqualSourcesGiveEqualPixels : Prop :=
  ∀ (c : Config) (cmd : Cmd) (ctx : Ctx) (step : Word) (m1 m2 m1' m2' : Memory) (draws : Nat → Option Byte) (u1 u2 : Nat),
    ctx.suppressDraw = false → stepOf cmd = some step →
    (∀ a ∈ readSet c.width cmd step, readByte m1 a = readByte m2 a) →
    blit c cmd ctx m1 draws = .ok (m1', u1) → blit c cmd ctx m2 draws = .ok (m2', u2) →
    u1 = u2 ∧ (∀ a ∈ nominalBytes c.width cmd ctx, readByte m1' a = readByte m2' a) ∧
    (∀ a, readByte m1' a = readByte m2' a ∨ (readByte m1' a = readByte m1 a ∧ readByte m2' a = readByte m2 a))

/-- R32: an unscaled blit does not depend on SCALE. -/
def Obligations.UnscaledBlitIgnoresScale : Prop :=
  ∀ (key : BitVec 3) (oe : Bool) (s : State) (v : Word), key.getLsbD 2 = false →
    exec (blitInstr key oe) (s.withRegs (writeReg .scale v s.regs)) =
      andThen (exec (blitInstr key oe) s) (exec (.wrScale v))

/-- R134, R73: a scaled blit ignores OVERWRITE_EDGES. -/
def Obligations.ScaledBlitIgnoresOverwriteEdges : Prop :=
  ∀ (key : BitVec 3) (s : State), key.getLsbD 2 = true → exec (blitInstr key true) s = exec (blitInstr key false) s

/-- R132: at SCALE = 1.0 a scaled blit does what the unscaled one does, for a region inside a bitmap whose dimensions are powers of
two of at most `2^16`. -/
def Obligations.ScaleIdentity : Prop :=
  ∀ (key : BitVec 3) (s : State), key.getLsbD 2 = false → AtScaleOne s →
    exec (blitInstr (key ||| 4#3) false) s = exec (blitInstr key false) s

/-- R102 (the source's mirror round trip): mirroring a mirrored rectangle again gives the original rows. The second blit reads
where the first one wrote and draws elsewhere. -/
def Obligations.MirrorRoundTrip : Prop :=
  ∀ (s1 t1 s2 : State) (k1 k2 : Word),
    let c1 := commandFor 1#3 false s1
    let x1 := snapshotCtx s1.regs
    let c2 := commandFor 1#3 false s2
    let x2 := snapshotCtx s2.regs
    let w := s1.cfg.width
    BlitRuns 1#3 false s1 k1 → UnitsDistinct w c1 x1 → exec (.bltH false) s1 = .next t1 →
    s2.mem = t1.mem → s2.cfg = s1.cfg →
    c2.srcBase = x1.fbBase → c2.srcStride = x1.fbPitch → c2.srcX = c1.dstX → c2.srcY = c1.dstY →
    c2.dstW = c1.dstW → c2.dstH = c1.dstH →
    BlitRuns 1#3 false s2 k2 → UnitsDistinct w c2 x2 →
    ∃ t2, exec (.bltH false) s2 = .next t2 ∧
      ∀ j < c1.dstH.toNat, ∀ i < c1.dstW.toNat,
        unitAt t2 (dstAddr w x2 (c2.dstY + BitVec.ofNat 32 j) (c2.dstX + BitVec.ofNat 32 i)) =
          unitAt s1 (srcAddr w c1 (c1.srcY + BitVec.ofNat 32 j) (c1.srcX + BitVec.ofNat 32 i))

/-! Whole-machine rules. -/

/-- R39: a register changes only by a host write or by reset. -/
def Obligations.RegistersChangeOnlyByWritesAndReset : Prop :=
  ∀ s t : State, step s = .next t → t.regs ≠ s.regs →
    s.run = none ∧
    ((∃ rest, s.host = .reset :: rest) ∨
      ∃ a rest r v, s.host = .access a :: rest ∧ a.wellFormed = true ∧ decodeTW a.tw = .ok (writeInstr r v) ∧ r ≠ .start)

/-- R171, R172, R174, R58: memory changes only by a blit or by the host's own store. -/
def Obligations.MemoryChangesOnlyByBlitsAndHostStores : Prop :=
  ∀ s t : State, step s = .next t → t.mem ≠ s.mem →
    (∃ r, s.run = some r) ∨
    (∃ a rest, s.host = .access a :: rest ∧ decodeTW a.tw = .ok .go) ∨
    (∃ a b rest, s.host = .storeByte a b :: rest ∧ t.mem = writeByte s.mem a b)

/-- R7, log 1: no step changes a parameter. -/
def Obligations.ParametersNeverChange : Prop :=
  ∀ s t : State, step s = .next t → t.cfg = s.cfg

/-- Every step keeps the canonical form of memory, the reserved bits of FLAGS and CTRL at 0 (R79, R171), and the position of a blit in
progress in its range (R40; log 8: after a step there is none). -/
def Obligations.StepKeepsInvariant : Prop :=
  ∀ s t : State, s.Inv → step s = .next t → t.Inv

/-- The invariant holds after reset (R46). -/
def Obligations.ResetMeetsInvariant : Prop := State.reset.Inv

/-- R64 (a), (c), log 7: the host's own store is seen by its own later read, and by nothing else in memory. -/
def Obligations.HostStoreIsSeenByHostLoad : Prop :=
  ∀ (s : State) (a : Word) (b : Byte) (rest : List HostOp), s.run = none →
    s.host = .storeByte a b :: .loadByte a :: rest → platformWrites s.cfg a = true → platformReads s.cfg a = true →
    ∃ t u, step s = .next t ∧ step t = .next u ∧ u.reply = .byte b ∧ u.host = rest ∧ u.mem = t.mem ∧
      u.regs = s.regs ∧ (∀ x, x ≠ a → readByte t.mem x = readByte s.mem x)

/-! The sequencer and the fast paths. -/

/-- R40: what one unit transfer does to the position, which never leaves its range and never wraps. -/
def Obligations.SequencerPositionAdvances : Prop :=
  ∀ (k : Kernel) (w : PixelWidth) (draws : Nat → Option Byte) (r : Run) (m m' : Memory) (r' : Option Run),
    tick k w draws r m = some (r', m') →
    (r.i.toNat + 1 < r.cmd.dstW.toNat → ∃ q, r' = some q ∧ q.j = r.j ∧ q.i.toNat = r.i.toNat + 1) ∧
    (r.cmd.dstW.toNat ≤ r.i.toNat + 1 → r.j.toNat + 1 < r.cmd.dstH.toNat →
      ∃ q, r' = some q ∧ q.j.toNat = r.j.toNat + 1 ∧ q.i = 0) ∧
    (r.cmd.dstW.toNat ≤ r.i.toNat + 1 → r.cmd.dstH.toNat ≤ r.j.toNat + 1 → r' = none) ∧
    (r.inRange = true → r'.all Run.inRange = true)

/-- R40, R60, R101, R102, R129, R130: from position `(0, 0)` the sequencer makes `DST_W * DST_H` unit transfers, ends idle, and
leaves the memory the kernel's loops leave. -/
def Obligations.SequencerRefinesKernel : Prop :=
  ∀ (k : Kernel) (w : PixelWidth) (draws : Nat → Option Byte) (cmd : Cmd) (ctx : Ctx) (step : Word) (m : Memory),
    cmd.dstW ≠ 0#32 → cmd.dstH ≠ 0#32 →
    ticks k w draws (cmd.dstH.toNat * cmd.dstW.toNat) (some (startRun w cmd ctx step)) m =
      (runKernel k w draws (startRun w cmd ctx step) m).map fun m' => (none, m')

/-- R103, R107: on a row the wide path's gate admits, whose source and destination bytes are disjoint, the wide path does what the
reference loop does. -/
def Obligations.WidePathMatchesReference : Prop :=
  ∀ (r : Run) (m : Memory), wideGate .w16 r = true →
    (∀ n < 2 * r.cmd.dstW.toNat, ∀ n' < 2 * r.cmd.dstW.toNat,
      r.sp + BitVec.ofNat 32 n ≠ r.dp + BitVec.ofNat 32 n') →
    wideRow r m = (columnLoop (straightUnit .w16) r.cmd.dstW.toNat (r, m)).map Prod.snd

/-! The datapath. -/

/-- R94: the mirrored write path stores a unit as `MemWrite` would. -/
def Obligations.MirroredWriteKeepsUnit : Prop :=
  ∀ (w : PixelWidth) (m : Memory) (a : Word) (b : List Byte), b.length = unitSize w →
    decWrite m a (swapUnit w b) = memWrite m a b

/-- R92: `swapUnit`. -/
def Obligations.SwapUnitReversesBytes : Prop :=
  (∀ b0 : Byte, swapUnit .w8 [b0] = [b0]) ∧ (∀ b0 b1 : Byte, swapUnit .w16 [b0, b1] = [b1, b0]) ∧
  (∀ (w : PixelWidth) (b : List Byte), swapUnit w (swapUnit w b) = b)

/-- R52, R53, R50: the unit addresses, modulo `2^32`. -/
def Obligations.UnitAddressesWrap : Prop :=
  ∀ (w : PixelWidth) (cmd : Cmd) (ctx : Ctx) (r c : Word),
    (srcAddr w cmd r c).toNat =
      (cmd.srcBase.toNat + (r.toNat * cmd.srcStride.toNat + c.toNat) * unitSize w) % 2 ^ 32 ∧
    (dstAddr w ctx r c).toNat =
      (ctx.fbBase.toNat + (r.toNat * ctx.fbPitch.toNat + c.toNat) * unitSize w) % 2 ^ 32

/-- R55: with bases that are multiples of U every unit address is one. -/
def Obligations.UnitAddressesAreAligned : Prop :=
  ∀ (w : PixelWidth) (cmd : Cmd) (ctx : Ctx) (r c : Word), legalAlignment w cmd ctx = true →
    (srcAddr w cmd r c).toNat % unitSize w = 0 ∧ (dstAddr w ctx r c).toNat % unitSize w = 0

/-- R122, R123: `RecipStep`. -/
def Obligations.RecipStepIsFloor : Prop :=
  ∀ s : Word,
    (2 ≤ s.toNat ∧ s.toNat < 2 ^ 31 → ∃ q, recipStep s = some q ∧ q.toNat = 2 ^ 32 / s.toNat) ∧
    (s.toNat < 2 ∨ 2 ^ 31 ≤ s.toNat → recipStep s = none)

/-- R125, R126: the source coordinates are those of accumulators that start at the offset and add `step`. -/
def Obligations.AccumulatorsGiveCoordinates : Prop :=
  ∀ (cmd : Cmd) (step : Word) (v u : Nat → Word),
    v 0 = cmd.srcY <<< 16 → (∀ j, v (j + 1) = v j + step) →
    u 0 = cmd.srcX <<< 16 → (∀ i, u (i + 1) = u i + step) →
    (∀ j, srcRow cmd step j = (v j >>> 16) &&& (cmd.srcH - 1)) ∧
    (∀ i, srcCol cmd step i = (u i >>> 16) &&& (cmd.srcW - 1))

/-- R128: the mask; for a power of two it is the remainder, for 0 nothing is masked. -/
def Obligations.WrapMaskIsRemainder : Prop :=
  ∀ x d : Word, wrapMask x d = x &&& (d - 1) ∧ (∀ k ≤ 31, d.toNat = 2 ^ k → (wrapMask x d).toNat = x.toNat % 2 ^ k) ∧ wrapMask x 0#32 = x

/-- R142, R112: the row stride is the pitch or its negation, and processed row `j` starts at framebuffer row `DST_Y + j`, or `DST_Y + DST_H - 1 - j` when V = 1, column DST_X. -/
def Obligations.OrientPlacesRows : Prop :=
  ∀ (w : PixelWidth) (cmd : Cmd) (ctx : Ctx) (j : Nat),
    (orient w cmd ctx).2 = (if mirrorV cmd.flags = true then 0 - ctx.fbPitch else ctx.fbPitch) ∧
    (orient w cmd ctx).1 + BitVec.ofNat 32 j * (orient w cmd ctx).2 * unitWord w =
      dstAddr w ctx
        (if mirrorV cmd.flags = true then cmd.dstY + cmd.dstH - 1 - BitVec.ofNat 32 j
          else cmd.dstY + BitVec.ofNat 32 j) cmd.dstX
end

