-- ==== Sys2Proof/Laws/Decode.lean ====
section
/-! SUPPORT. The fields of a transaction word that was put together from them, and the two directions of the register table. -/

namespace Sys2Proof

@[simp] theorem twWrite_mkTW (we : Bool) (off : BitVec 6) (d : Word) : twWrite (mkTW we off d) = we := by
  unfold twWrite mkTW
  rw [BitVec.getLsbD_append, BitVec.getLsbD_append]
  simp

@[simp] theorem twOffset_mkTW (we : Bool) (off : BitVec 6) (d : Word) : twOffset (mkTW we off d) = off := by
  apply BitVec.eq_of_getLsbD_eq
  intro k hk
  unfold twOffset mkTW
  rw [BitVec.getLsbD_extractLsb', BitVec.getLsbD_append, BitVec.getLsbD_append]
  simp [hk]

@[simp] theorem twData_mkTW (we : Bool) (off : BitVec 6) (d : Word) : twData (mkTW we off d) = d := by
  apply BitVec.eq_of_getLsbD_eq
  intro k hk
  unfold twData mkTW
  rw [BitVec.getLsbD_extractLsb', BitVec.getLsbD_append]
  simp [hk]

@[simp] theorem regAt_regOffset (r : RegName) : regAt ((regOffset r).extractLsb' 2 4) = r := by
  cases r <;> rfl

theorem regOffset_aligned (r : RegName) : (regOffset r).extractLsb' 0 2 = 0#2 := by
  cases r <;> rfl

/-- A transaction word with a register's offset decodes to the write or the read of that register. -/
theorem decodeTW_mkTW (we : Bool) (r : RegName) (d : Word) :
    decodeTW (mkTW we (regOffset r) d) = .ok (if we then writeInstr r d else readInstr r) := by
  simp [decodeTW, regOffset_aligned]

/-- A transaction word that decodes is the write or the read of a register. -/
theorem decodeTW_ok {t : TW} {i : Instr} (h : decodeTW t = .ok i) :
    ∃ r, i = if twWrite t then writeInstr r (twData t) else readInstr r := by
  unfold decodeTW at h
  split at h
  · cases h
    exact ⟨_, rfl⟩
  · cases h

/-- A write of START with bit 0 clear is the even write (R174). -/
theorem writeInstr_start_even {v : Word} (h : v.getLsbD 0 = false) : writeInstr .start v = .wrStartEven :=
  if_neg (ne_true_of_eq_false h)

/-- A write of START with bit 0 set is GO (R173). -/
theorem writeInstr_start_odd {v : Word} (h : v.getLsbD 0 = true) : writeInstr .start v = .go := if_pos h

theorem blitInstr_cases (P : BitVec 3 → Prop) (h0 : P 0#3) (h1 : P 1#3) (h2 : P 2#3) (h3 : P 3#3) (h4 : P 4#3)
    (h5 : P 5#3) (h6 : P 6#3) (h7 : P 7#3) (key : BitVec 3) : P key := by
  have : key = 0#3 ∨ key = 1#3 ∨ key = 2#3 ∨ key = 3#3 ∨ key = 4#3 ∨ key = 5#3 ∨ key = 6#3 ∨ key = 7#3 := by
    revert key; decide
  rcases this with h | h | h | h | h | h | h | h <;> subst h <;> assumption

end Sys2Proof
end

