-- ==== Sys2Proof/Laws/State.lean ====
section
/-! SUPPORT. The fields of a state after each named update: one lemma per field per update, by definition. -/

namespace Sys2Proof.Machine

section
variable (s : State) (g : Regs) (m : Memory) (a : Reply) (h : List HostOp) (n : Nat)

@[simp] theorem withRegs_cfg : (s.withRegs g).cfg = s.cfg := rfl
@[simp] theorem withRegs_regs : (s.withRegs g).regs = g := rfl
@[simp] theorem withRegs_mem : (s.withRegs g).mem = s.mem := rfl
@[simp] theorem withRegs_run : (s.withRegs g).run = s.run := rfl
@[simp] theorem withRegs_host : (s.withRegs g).host = s.host := rfl
@[simp] theorem withRegs_reply : (s.withRegs g).reply = s.reply := rfl
@[simp] theorem withRegs_draws : (s.withRegs g).draws = s.draws := rfl

@[simp] theorem withMem_cfg : (s.withMem m).cfg = s.cfg := rfl
@[simp] theorem withMem_regs : (s.withMem m).regs = s.regs := rfl
@[simp] theorem withMem_mem : (s.withMem m).mem = m := rfl
@[simp] theorem withMem_run : (s.withMem m).run = s.run := rfl
@[simp] theorem withMem_host : (s.withMem m).host = s.host := rfl
@[simp] theorem withMem_reply : (s.withMem m).reply = s.reply := rfl
@[simp] theorem withMem_draws : (s.withMem m).draws = s.draws := rfl

@[simp] theorem withReply_cfg : (s.withReply a).cfg = s.cfg := rfl
@[simp] theorem withReply_regs : (s.withReply a).regs = s.regs := rfl
@[simp] theorem withReply_mem : (s.withReply a).mem = s.mem := rfl
@[simp] theorem withReply_run : (s.withReply a).run = s.run := rfl
@[simp] theorem withReply_host : (s.withReply a).host = s.host := rfl
@[simp] theorem withReply_reply : (s.withReply a).reply = a := rfl
@[simp] theorem withReply_draws : (s.withReply a).draws = s.draws := rfl

@[simp] theorem withHost_cfg : (s.withHost h).cfg = s.cfg := rfl
@[simp] theorem withHost_regs : (s.withHost h).regs = s.regs := rfl
@[simp] theorem withHost_mem : (s.withHost h).mem = s.mem := rfl
@[simp] theorem withHost_run : (s.withHost h).run = s.run := rfl
@[simp] theorem withHost_host : (s.withHost h).host = h := rfl
@[simp] theorem withHost_reply : (s.withHost h).reply = s.reply := rfl
@[simp] theorem withHost_draws : (s.withHost h).draws = s.draws := rfl

@[simp] theorem finishBlit_cfg : (s.finishBlit m n).cfg = s.cfg := rfl
@[simp] theorem finishBlit_regs : (s.finishBlit m n).regs = s.regs := rfl
@[simp] theorem finishBlit_mem : (s.finishBlit m n).mem = m := rfl
@[simp] theorem finishBlit_run : (s.finishBlit m n).run = none := rfl
@[simp] theorem finishBlit_host : (s.finishBlit m n).host = s.host := rfl
@[simp] theorem finishBlit_reply : (s.finishBlit m n).reply = s.reply := rfl
@[simp] theorem finishBlit_draws : (s.finishBlit m n).draws = s.draws + n := rfl

@[simp] theorem resetEngine_cfg : (resetEngine s).cfg = s.cfg := rfl
@[simp] theorem resetEngine_regs : (resetEngine s).regs = Regs.zero := rfl
@[simp] theorem resetEngine_mem : (resetEngine s).mem = s.mem := rfl
@[simp] theorem resetEngine_run : (resetEngine s).run = none := rfl
@[simp] theorem resetEngine_host : (resetEngine s).host = s.host := rfl
@[simp] theorem resetEngine_reply : (resetEngine s).reply = s.reply := rfl
@[simp] theorem resetEngine_draws : (resetEngine s).draws = s.draws := rfl

end

end Sys2Proof.Machine
end

