-- ==== Sys2Proof/Laws/Flags.lean ====
section
/-! SUPPORT. The fields of a FLAGS word, and the slot of the dispatch table they select. -/

namespace Sys2Proof.Machine

theorem flagsKey_toNat (f : Word) : (flagsKey f).toNat = f.toNat % 8 := by
  simp [flagsKey]

theorem testBit_mod_eight (n k : Nat) (h : k < 3) : n.testBit k = (n % 8).testBit k := by
  rw [show 8 = 2 ^ 3 by norm_num, Nat.testBit_mod_two_pow]
  simp [h]

theorem mirrorH_eq (f : Word) : mirrorH f = (flagsKey f).toNat.testBit 0 := by
  rw [flagsKey_toNat, ← testBit_mod_eight _ _ (by norm_num)]
  rfl

theorem mirrorV_eq (f : Word) : mirrorV f = (flagsKey f).toNat.testBit 1 := by
  rw [flagsKey_toNat, ← testBit_mod_eight _ _ (by norm_num)]
  rfl

theorem scaled_eq (f : Word) : scaled f = (flagsKey f).toNat.testBit 2 := by
  rw [flagsKey_toNat, ← testBit_mod_eight _ _ (by norm_num)]
  rfl

/-- The kernel is a function of S and H only (R141). -/
theorem table_flagsKey (f : Word) :
    table (flagsKey f) =
      if scaled f then (if mirrorH f then .scaledMirrored else .scaledStraight)
      else (if mirrorH f then .mirroredCopy else .straightCopy) := by
  rw [mirrorH_eq, scaled_eq]
  have h := (flagsKey f).isLt
  generalize flagsKey f = key at h ⊢
  revert key
  decide

theorem flagsKey_flagsWord (key : BitVec 3) (oe : Bool) : flagsKey (flagsWord key oe) = key := by
  revert key oe
  decide

theorem flagsOE_flagsWord (key : BitVec 3) (oe : Bool) : flagsOE (flagsWord key oe) = oe := by
  revert key oe
  decide

theorem mirrorH_flagsWord (key : BitVec 3) (oe : Bool) : mirrorH (flagsWord key oe) = key.getLsbD 0 := by
  revert key oe
  decide

theorem mirrorV_flagsWord (key : BitVec 3) (oe : Bool) : mirrorV (flagsWord key oe) = key.getLsbD 1 := by
  revert key oe
  decide

theorem scaled_flagsWord (key : BitVec 3) (oe : Bool) : scaled (flagsWord key oe) = key.getLsbD 2 := by
  revert key oe
  decide

/-- The word GO finds in FLAGS is the word of the operation it selects (R73, R79). -/
theorem flagsWord_of_read (f : Word) : flagsWord (flagsKey f) (flagsOE f) = f &&& flagsMask := by
  have h1 : ∀ x : BitVec 4, flagsWord (x.extractLsb' 0 3) (x.getLsbD 3) = x.zeroExtend 32 := by decide
  have h2 := h1 (f.extractLsb' 0 4)
  have h3 : (f.extractLsb' 0 4).extractLsb' 0 3 = flagsKey f := by
    apply BitVec.eq_of_toNat_eq
    simp [flagsKey]
  have h4 : (f.extractLsb' 0 4).getLsbD 3 = flagsOE f := by simp [flagsOE]
  rw [h3, h4] at h2
  rw [h2]
  apply BitVec.eq_of_toNat_eq
  have h5 : f.toNat &&& (2 ^ 4 - 1) = f.toNat % 2 ^ 4 := Nat.and_two_pow_sub_one_eq_mod ..
  simp [flagsMask] at h5 ⊢
  omega

end Sys2Proof.Machine
end

