-- ==== Sys2Proof/Laws/Memory.lean ====
section
/-! SUPPORT. The laws of memory: a read after a write, what a write leaves alone, and that every write keeps the canonical
form. -/

namespace Sys2Proof.Machine

/-! One byte. -/

theorem lookup_insert (m : Memory) (a : Nat) (b : Byte) (x : Nat) :
    (m.insert a b).lookup x = if x = a then some b else m.lookup x := by
  induction m with
  | nil =>
    by_cases hx : x = a
    · simp [Memory.insert, Memory.lookup, hx]
    · simp [Memory.insert, Memory.lookup, hx, Ne.symm hx]
  | cons c m ih =>
    unfold Memory.insert
    split
    · by_cases hx : x = a
      · simp [Memory.lookup, hx]
      · simp [Memory.lookup, hx, Ne.symm hx]
    · split
      · next h =>
        subst h
        by_cases hx : x = c.1
        · simp [Memory.lookup, hx]
        · simp [Memory.lookup, hx, Ne.symm hx]
      · next h1 h2 =>
        by_cases hx : x = a
        · subst hx
          simp [Memory.lookup, ih, Ne.symm h2]
        · simp [Memory.lookup, ih, hx]

@[simp] theorem readByte_writeByte_same (m : Memory) (a : Word) (b : Byte) :
    readByte (writeByte m a b) a = some b := by
  simp [readByte, writeByte, lookup_insert]

theorem readByte_writeByte_other (m : Memory) {a x : Word} (b : Byte) (h : x ≠ a) :
    readByte (writeByte m a b) x = readByte m x := by
  have : x.toNat ≠ a.toNat := fun e => h (BitVec.eq_of_toNat_eq e)
  simp [readByte, writeByte, lookup_insert, this]

theorem readByte_writeByte (m : Memory) (a x : Word) (b : Byte) :
    readByte (writeByte m a b) x = if x = a then some b else readByte m x := by
  split
  · next h => subst h; simp
  · next h => exact readByte_writeByte_other m b h

theorem mem_insert {m : Memory} {a : Nat} {b : Byte} {c : Host.Cell} (h : c ∈ m.insert a b) :
    c = (a, b) ∨ c ∈ m := by
  induction m with
  | nil => simpa [Memory.insert] using h
  | cons d m ih =>
    unfold Memory.insert at h
    split at h
    · simpa using h
    · split at h
      · rcases List.mem_cons.1 h with h | h
        · exact .inl h
        · exact .inr (List.mem_cons_of_mem _ h)
      · rcases List.mem_cons.1 h with h | h
        · exact .inr (by simp [h])
        · exact (ih h).imp id (List.mem_cons_of_mem _)

theorem insert_wf {m : Memory} (h : m.wf) {a : Nat} (ha : a < 2 ^ 32) (b : Byte) : (m.insert a b).wf := by
  refine ⟨?_, fun c hc => ?_⟩
  · obtain ⟨hp, -⟩ := h
    induction m with
    | nil => simp [Memory.insert]
    | cons d m ih =>
      have hd := List.pairwise_cons.1 hp
      unfold Memory.insert
      split
      · next hlt =>
        refine List.pairwise_cons.2 ⟨fun e he => ?_, hp⟩
        rcases List.mem_cons.1 he with he | he
        · simpa [he] using hlt
        · exact lt_trans hlt (hd.1 e he)
      · split
        · next heq => exact List.pairwise_cons.2 ⟨fun e he => by simpa [heq] using hd.1 e he, hd.2⟩
        · next h1 h2 =>
          refine List.pairwise_cons.2 ⟨fun e he => ?_, ih hd.2⟩
          rcases mem_insert he with he | he
          · subst he
            simp only
            omega
          · exact hd.1 e he
  · rcases mem_insert hc with hc | hc
    · simpa [hc] using ha
    · exact h.2 c hc

theorem writeByte_wf {m : Memory} (h : m.wf) (a : Word) (b : Byte) : (writeByte m a b).wf :=
  insert_wf h a.isLt b

theorem empty_wf : Memory.wf [] := ⟨List.Pairwise.nil, fun _ h => nomatch h⟩

/-! Several bytes. -/

/-- The byte after: `a + (k + 1) = (a + 1) + k`. -/
theorem addr_succ (a : Word) (k : Nat) : a + BitVec.ofNat 32 (k + 1) = a + 1#32 + BitVec.ofNat 32 k := by
  rw [BitVec.ofNat_add, add_comm (BitVec.ofNat 32 k), ← add_assoc]

theorem memWrite_wf {m : Memory} (h : m.wf) (a : Word) (bs : List Byte) : (memWrite m a bs).wf := by
  induction bs generalizing m a with
  | nil => exact h
  | cons b bs ih => exact ih (writeByte_wf h a b) (a + 1#32)

theorem decWrite_wf {m : Memory} (h : m.wf) (a : Word) (bs : List Byte) : (decWrite m a bs).wf :=
  memWrite_wf h a bs.reverse

/-- A write leaves every byte outside it alone. -/
theorem readByte_memWrite_other (m : Memory) (a x : Word) (bs : List Byte)
    (h : ∀ k < bs.length, x ≠ a + BitVec.ofNat 32 k) : readByte (memWrite m a bs) x = readByte m x := by
  induction bs generalizing m a with
  | nil => rfl
  | cons b bs ih =>
    have h0 : x ≠ a := by simpa using h 0 (by simp)
    refine (ih (writeByte m a b) (a + 1#32) fun k hk => ?_).trans (readByte_writeByte_other m b h0)
    have := h (k + 1) (by simpa using hk)
    rwa [addr_succ] at this

/-- A read depends only on the bytes read. -/
theorem memRead_congr {m m' : Memory} {a : Word} {n : Nat}
    (h : ∀ k < n, readByte m (a + BitVec.ofNat 32 k) = readByte m' (a + BitVec.ofNat 32 k)) :
    memRead m a n = memRead m' a n := by
  induction n generalizing a with
  | zero => rfl
  | succ n ih =>
    have h0 : readByte m a = readByte m' a := by simpa using h 0 (by simp)
    have h1 : memRead m (a + 1#32) n = memRead m' (a + 1#32) n := ih fun k hk => by
      have := h (k + 1) (by omega)
      rwa [addr_succ] at this
    simp [memRead, h0, h1]

theorem memRead_length {m : Memory} {a : Word} {n : Nat} {bs : List Byte} (h : memRead m a n = some bs) :
    bs.length = n := by
  induction n generalizing a bs with
  | zero => simp [memRead] at h; simp [← h]
  | succ n ih =>
    simp only [memRead] at h
    split at h
    · next b bs' _ h2 =>
      cases h
      simpa using ih h2
    · cases h

/-- A read of bytes that all hold a value gives them. -/
theorem memRead_isSome {m : Memory} {a : Word} {n : Nat}
    (h : ∀ k < n, (readByte m (a + BitVec.ofNat 32 k)).isSome = true) : (memRead m a n).isSome = true := by
  induction n generalizing a with
  | zero => rfl
  | succ n ih =>
    have h0 : (readByte m a).isSome = true := by simpa using h 0 (by simp)
    have h1 : (memRead m (a + 1#32) n).isSome = true := ih fun k hk => by
      have := h (k + 1) (by omega)
      rwa [addr_succ] at this
    obtain ⟨b, hb⟩ := Option.isSome_iff_exists.1 h0
    obtain ⟨bs, hbs⟩ := Option.isSome_iff_exists.1 h1
    simp [memRead, hb, hbs]

theorem ofNat_succ_ne_zero {k : Nat} (h : k + 1 < 2 ^ 32) (a : Word) : a ≠ a + BitVec.ofNat 32 (k + 1) := by
  intro e
  have h2 : BitVec.ofNat 32 (k + 1) = 0#32 := by
    have := congrArg (fun y => y - a) e
    simpa [add_sub_cancel_left] using this.symm
  have := congrArg BitVec.toNat h2
  rw [BitVec.toNat_ofNat, Nat.mod_eq_of_lt h] at this
  simp at this

/-- A read gives back what was written there. -/
theorem memRead_memWrite_same (m : Memory) (a : Word) (bs : List Byte) (h : bs.length ≤ 2 ^ 32) :
    memRead (memWrite m a bs) a bs.length = some bs := by
  induction bs generalizing m a with
  | nil => rfl
  | cons b bs ih =>
    have hl : bs.length + 1 ≤ 2 ^ 32 := by simpa using h
    have h1 := ih (writeByte m a b) (a + 1#32) (by omega)
    have h0 : readByte (memWrite (writeByte m a b) (a + 1#32) bs) a = some b := by
      rw [readByte_memWrite_other, readByte_writeByte_same]
      intro k hk
      have := ofNat_succ_ne_zero (k := k) (by omega) a
      rwa [addr_succ] at this
    simp [memRead, memWrite, h0, h1]

/-! Units. -/

@[simp] theorem unitSize_pos (w : PixelWidth) : 0 < unitSize w := by cases w <;> decide

theorem unitSize_le (w : PixelWidth) : unitSize w ≤ 2 := by cases w <;> decide

/-- The mirrored write path stores a unit as it was read (R94). -/
theorem decWrite_swapUnit (w : PixelWidth) (m : Memory) (a : Word) {b : List Byte} (h : b.length = unitSize w) :
    decWrite m a (swapUnit w b) = memWrite m a b := by
  cases w with
  | w8 =>
    match b, h with
    | [_], _ => rfl
  | w16 => simp [decWrite, swapUnit]

end Sys2Proof.Machine
end

