-- ==== Sys2Proof/Laws/Kernels.lean ====
section
/-! SUPPORT. What a kernel does, said once: it makes the transfers `(source unit, destination unit)` of R153 in the reference
order of R60, with the slack write of each row at its end, and nothing else. -/

namespace Sys2Proof.Machine

/-- One write of a kernel: a unit copied, or a slack unit written. -/
inductive Transfer where
  | copy (src dst : Word)
  | slack (dst : Word) (x : Byte)
deriving DecidableEq, Repr

/-- Memory after one transfer; none if a byte read holds no value. -/
def applyTransfer (w : PixelWidth) (m : Memory) : Transfer → Option Memory
  | .copy s d =>
    match memRead m s (unitSize w) with
    | some b => some (memWrite m d b)
    | none => none
  | .slack d x => some (memWrite m d [x])

/-- The copies of processed row `j`. -/
def rowCopies (w : PixelWidth) (cmd : Cmd) (ctx : Ctx) (step : Word) (j n : Nat) : List Transfer :=
  (List.range n).map fun i => .copy (srcUnitAddr w cmd step j i) (dstUnitAddr w cmd ctx j i)

/-- The slack write of processed row `j`, where it is permitted and drawn. -/
def rowSlack (w : PixelWidth) (cmd : Cmd) (ctx : Ctx) (draws : Nat → Option Byte) (j : Nat) : List Transfer :=
  if slackPermitted w cmd then
    match draws j with
    | some x => [.slack (slackAddr w cmd ctx j) x]
    | none => []
  else []

/-- The transfers of the first `n` rows. -/
def transfersOf (w : PixelWidth) (cmd : Cmd) (ctx : Ctx) (step : Word) (draws : Nat → Option Byte) (n : Nat) :
    List Transfer :=
  (List.range n).flatMap fun j => rowCopies w cmd ctx step j cmd.dstW.toNat ++ rowSlack w cmd ctx draws j

/-- The transient registers before the transfer at `(j, i)`. -/
def runAt (w : PixelWidth) (cmd : Cmd) (ctx : Ctx) (step : Word) (j i : Nat) : Run :=
  { cmd := cmd
    ctx := ctx
    step := step
    v := if scaled cmd.flags then toFixed cmd.srcY + BitVec.ofNat 32 j * step else toFixed cmd.srcY
    u := if scaled cmd.flags then toFixed cmd.srcX + BitVec.ofNat 32 i * step else toFixed cmd.srcX
    sp := if scaled cmd.flags then srcAddr w cmd cmd.srcY cmd.srcX
      else srcAddr w cmd (cmd.srcY + BitVec.ofNat 32 j) cmd.srcX
    dp := dstAddr w ctx (dstRowIndex cmd j) cmd.dstX
    rs := (orient w cmd ctx).2
    j := BitVec.ofNat 32 j
    i := BitVec.ofNat 32 i }

variable (w : PixelWidth) (cmd : Cmd) (ctx : Ctx) (step : Word) (draws : Nat → Option Byte)

theorem startRun_eq : startRun w cmd ctx step = runAt w cmd ctx step 0 0 := by
  simp only [startRun, runAt, orient, dstRowIndex]
  cases mirrorV cmd.flags <;> simp

/-! The pointers meet the closed forms. -/

theorem srcAddr_add_col (r c i : Word) :
    srcAddr w cmd r c + i * unitWord w = srcAddr w cmd r (c + i) := by
  unfold srcAddr; ring

theorem srcAddr_add_row (r c : Word) :
    srcAddr w cmd r c + cmd.srcStride * unitWord w = srcAddr w cmd (r + 1#32) c := by
  have h : (1#32 : Word) = 1 := rfl
  unfold srcAddr; rw [h]; ring

theorem dstAddr_add_col (y x i : Word) :
    dstAddr w ctx y x + i * unitWord w = dstAddr w ctx y (x + i) := by
  unfold dstAddr; ring

theorem dstAddr_rightmost (y x n i : Word) :
    dstAddr w ctx y x + (n - 1) * unitWord w - i * unitWord w = dstAddr w ctx y (x + n - 1 - i) := by
  unfold dstAddr
  have h : (1 : Word) = 1#32 := rfl
  ring

theorem dstAddr_sub_col (y x : Word) : dstAddr w ctx y x - unitWord w = dstAddr w ctx y (x - 1) := by
  unfold dstAddr; ring

theorem ofNat_succ (j : Nat) : BitVec.ofNat 32 (j + 1) = BitVec.ofNat 32 j + 1#32 := BitVec.ofNat_add ..

/-- The next destination row pointer (R142: `dp + rs * U` is one framebuffer row down, or up when V = 1). -/
theorem dstAddr_next_row (j : Nat) :
    dstAddr w ctx (dstRowIndex cmd j) cmd.dstX + (orient w cmd ctx).2 * unitWord w =
      dstAddr w ctx (dstRowIndex cmd (j + 1)) cmd.dstX := by
  have h : (1#32 : Word) = 1 := rfl
  unfold dstRowIndex orient
  cases mirrorV cmd.flags
  · simp only [Bool.false_eq_true, ↓reduceIte, dstAddr]
    rw [ofNat_succ, h]; ring
  · simp only [↓reduceIte, dstAddr]
    rw [ofNat_succ, h]; ring

/-- The texel a scaled kernel reads is the unit of its row and column (R129). -/
theorem texelAddr_eq (r : Run) :
    texelAddr w r =
      srcAddr w r.cmd (wrapMask (toIndex r.v) r.cmd.srcH) (wrapMask (toIndex r.u) r.cmd.srcW) := by
  unfold texelAddr srcAddr; ring

/-! One unit transfer, one row, all rows. -/

/-- A fold that can fail, over a list with one more element at its end. -/
theorem foldlM_snoc {α β : Type} (f : β → α → Option β) (l : List α) (x : α) (b : β) :
    (l ++ [x]).foldlM f b = (l.foldlM f b).bind fun b' => f b' x := by
  rw [List.foldlM_append]
  cases l.foldlM f b with
  | none => rfl
  | some b' =>
    change (f b' x).bind some = f b' x
    cases f b' x <;> rfl

/-- A unit transfer is the transfer of R153 at its position. -/
theorem kernelUnit_eq (j i : Nat) (m : Memory) :
    kernelUnit (table (flagsKey cmd.flags)) w (runAt w cmd ctx step j i) m =
      (applyTransfer w m (.copy (srcUnitAddr w cmd step j i) (dstUnitAddr w cmd ctx j i))).map
        fun m' => ({ runAt w cmd ctx step j (i + 1) with i := BitVec.ofNat 32 i }, m') := by
  rw [table_flagsKey]
  have hs : (runAt w cmd ctx step j i).cmd = cmd := rfl
  have hd : (runAt w cmd ctx step j i).dp = dstAddr w ctx (dstRowIndex cmd j) cmd.dstX := rfl
  have hi : colOffset w (runAt w cmd ctx step j i) = BitVec.ofNat 32 i * unitWord w := rfl
  have hm : rightmost w (runAt w cmd ctx step j i) - colOffset w (runAt w cmd ctx step j i) =
      dstAddr w ctx (dstRowIndex cmd j) (cmd.dstX + cmd.dstW - 1 - BitVec.ofNat 32 i) := by
    rw [rightmost, hs, hd, hi, dstAddr_rightmost]
  have hn : (runAt w cmd ctx step j i).dp + colOffset w (runAt w cmd ctx step j i) =
      dstAddr w ctx (dstRowIndex cmd j) (cmd.dstX + BitVec.ofNat 32 i) := by
    rw [hd, hi, dstAddr_add_col]
  cases hS : scaled cmd.flags
  · have hsp : (runAt w cmd ctx step j i).sp + colOffset w (runAt w cmd ctx step j i) =
        srcUnitAddr w cmd step j i := by
      simp only [runAt, hS, Bool.false_eq_true, ↓reduceIte, colOffset, srcAddr_add_col, srcUnitAddr, rowIndex, colIndex]
    have hrun : ({ runAt w cmd ctx step j (i + 1) with i := BitVec.ofNat 32 i } : Run) = runAt w cmd ctx step j i := by
      simp only [runAt, hS, Bool.false_eq_true, ↓reduceIte]
    cases hH : mirrorH cmd.flags
    · simp only [Bool.false_eq_true, ↓reduceIte, kernelUnit, straightUnit, hsp, hn, applyTransfer, hrun, dstUnitAddr,
        dstColIndex, hH]
      cases memRead m (srcUnitAddr w cmd step j i) (unitSize w) <;> rfl
    · simp only [Bool.false_eq_true, ↓reduceIte, kernelUnit, mirroredUnit, hsp, hm, applyTransfer, hrun, dstUnitAddr,
        dstColIndex, hH]
      cases hb : memRead m (srcUnitAddr w cmd step j i) (unitSize w) with
      | none => rfl
      | some b => simp only [decWrite_swapUnit w m _ (memRead_length hb), Option.map_some]
  · have htx : texelAddr w (runAt w cmd ctx step j i) = srcUnitAddr w cmd step j i := by
      rw [texelAddr_eq]
      simp only [runAt, hS, ↓reduceIte, srcUnitAddr, rowIndex, colIndex, srcRow, srcCol]
    have hrun : ({ runAt w cmd ctx step j i with u := (runAt w cmd ctx step j i).u + (runAt w cmd ctx step j i).step } : Run) =
        { runAt w cmd ctx step j (i + 1) with i := BitVec.ofNat 32 i } := by
      have h : (1#32 : Word) = 1 := rfl
      simp only [runAt, hS, ↓reduceIte, Run.mk.injEq, true_and, and_true]
      rw [ofNat_succ, h]
      ring
    cases hH : mirrorH cmd.flags
    · simp only [Bool.false_eq_true, ↓reduceIte, kernelUnit, scaledStraightUnit, htx, hn, applyTransfer, hrun, dstUnitAddr,
        dstColIndex, hH]
      cases memRead m (srcUnitAddr w cmd step j i) (unitSize w) <;> rfl
    · simp only [↓reduceIte, kernelUnit, scaledMirroredUnit, htx, hm, applyTransfer, hrun, dstUnitAddr, dstColIndex, hH]
      cases hb : memRead m (srcUnitAddr w cmd step j i) (unitSize w) with
      | none => rfl
      | some b => simp only [decWrite_swapUnit w m _ (memRead_length hb), Option.map_some]

/-- The column counter after a column loop of `n` columns entered with counter `i0`. -/
def lastColumn (i0 : Word) (n : Nat) : Word := if n = 0 then i0 else BitVec.ofNat 32 (n - 1)

/-- The column loop of row `j` makes the row's copies. -/
theorem columnLoop_eq (j : Nat) (i0 : Word) (n : Nat) (m : Memory) :
    columnLoop (kernelUnit (table (flagsKey cmd.flags)) w) n ({ runAt w cmd ctx step j 0 with i := i0 }, m) =
      ((rowCopies w cmd ctx step j n).foldlM (applyTransfer w) m).map
        fun m' => ({ runAt w cmd ctx step j n with i := lastColumn i0 n }, m') := by
  induction n with
  | zero => rfl
  | succ n ih =>
    unfold columnLoop rowCopies at *
    rw [List.range_succ, foldlM_snoc, ih, List.map_append, List.map_singleton, foldlM_snoc]
    cases ((List.range n).map fun i => Transfer.copy (srcUnitAddr w cmd step j i) (dstUnitAddr w cmd ctx j i)).foldlM
        (applyTransfer w) m with
    | none => rfl
    | some m' => exact kernelUnit_eq w cmd ctx step j n m'

/-- The end of row `j`: the pointers of the next row, and the row's slack write. -/
theorem kernelRowEnd_eq {j : Nat} (hj32 : j < 2 ^ 32) (i1 : Word) (n : Nat) (m : Memory) :
    ∃ m', (rowSlack w cmd ctx draws j).foldlM (applyTransfer w) m = some m' ∧
      kernelRowEnd (table (flagsKey cmd.flags)) w draws { runAt w cmd ctx step j n with i := i1 } m =
        ({ runAt w cmd ctx step (j + 1) (if scaled cmd.flags then 0 else n) with j := BitVec.ofNat 32 j, i := i1 }, m') := by
  have hrow := dstAddr_next_row w cmd ctx j
  rw [table_flagsKey]
  cases hS : scaled cmd.flags
  · have hptr : nextRowPointers w { runAt w cmd ctx step j n with i := i1 } =
        { runAt w cmd ctx step (j + 1) n with j := BitVec.ofNat 32 j, i := i1 } := by
      have hsrc := srcAddr_add_row w cmd (cmd.srcY + BitVec.ofNat 32 j) cmd.srcX
      rw [add_assoc, ← ofNat_succ] at hsrc
      simp only [nextRowPointers, runAt, hS, Bool.false_eq_true, ↓reduceIte, Run.mk.injEq, true_and, and_true]
      exact ⟨hsrc, hrow⟩
    have hslack : ∀ a, a = slackAddr w cmd ctx j → ∃ m', (rowSlack w cmd ctx draws j).foldlM (applyTransfer w) m = some m' ∧
        slackWrite w draws { runAt w cmd ctx step j n with i := i1 } m a = m' := by
      rintro a rfl
      have hj : ({ runAt w cmd ctx step j n with i := i1 } : Run).j.toNat = j := by
        simpa [runAt] using hj32
      have hc : ({ runAt w cmd ctx step j n with i := i1 } : Run).cmd = cmd := rfl
      unfold slackWrite rowSlack
      rw [hj, hc]
      cases slackPermitted w cmd
      · exact ⟨m, rfl, rfl⟩
      · cases draws j <;> exact ⟨_, rfl, rfl⟩
    cases hH : mirrorH cmd.flags
    · have ha : ({ runAt w cmd ctx step j n with i := i1 } : Run).dp +
          ({ runAt w cmd ctx step j n with i := i1 } : Run).cmd.dstW * unitWord w = slackAddr w cmd ctx j := by
        simp only [runAt, slackAddr, hH, Bool.false_eq_true, ↓reduceIte, dstAddr_add_col]
      obtain ⟨m', h1, h2⟩ := hslack _ ha
      refine ⟨m', h1, ?_⟩
      simp only [Bool.false_eq_true, ↓reduceIte, kernelRowEnd, straightRowEnd, hptr]
      exact Prod.ext rfl h2
    · have ha : ({ runAt w cmd ctx step j n with i := i1 } : Run).dp - unitWord w = slackAddr w cmd ctx j := by
        simp only [runAt, slackAddr, hH, ↓reduceIte, dstAddr_sub_col]
      obtain ⟨m', h1, h2⟩ := hslack _ ha
      refine ⟨m', h1, ?_⟩
      simp only [Bool.false_eq_true, ↓reduceIte, kernelRowEnd, mirroredRowEnd, hptr]
      exact Prod.ext rfl h2
  · have hno : rowSlack w cmd ctx draws j = [] := by simp [rowSlack, slackPermitted, hS]
    refine ⟨m, by rw [hno]; rfl, ?_⟩
    have hrun : scaledRowEnd w { runAt w cmd ctx step j n with i := i1 } m =
        ({ runAt w cmd ctx step (j + 1) 0 with j := BitVec.ofNat 32 j, i := i1 }, m) := by
      simp only [scaledRowEnd, runAt, hS, ↓reduceIte, Prod.mk.injEq, Run.mk.injEq, true_and, and_true]
      refine ⟨?_, ?_, hrow⟩
      · have h1 : (1#32 : Word) = 1 := rfl
        rw [ofNat_succ, h1]; ring
      · simp
    cases mirrorH cmd.flags <;> simpa [kernelRowEnd] using hrun

/-- One iteration of the row loop: the row's copies, then its slack write. -/
theorem copyRow_eq {j : Nat} (hj : j < 2 ^ 32) (j0 i0 : Word) (m : Memory) :
    copyRow (kernelUnit (table (flagsKey cmd.flags)) w) (kernelRowEnd (table (flagsKey cmd.flags)) w draws)
        cmd.dstW.toNat ({ runAt w cmd ctx step j 0 with j := j0, i := i0 }, m) j =
      ((rowCopies w cmd ctx step j cmd.dstW.toNat ++ rowSlack w cmd ctx draws j).foldlM (applyTransfer w) m).map
        fun m' => ({ runAt w cmd ctx step (j + 1) 0 with j := BitVec.ofNat 32 j, i := lastColumn i0 cmd.dstW.toNat }, m') := by
  have hcol := columnLoop_eq w cmd ctx step j i0 cmd.dstW.toNat m
  unfold copyRow
  change (match columnLoop _ _ ({ runAt w cmd ctx step j 0 with i := i0 }, m) with
    | some q => some (kernelRowEnd (table (flagsKey cmd.flags)) w draws q.1 q.2)
    | none => none) = _
  rw [hcol, List.foldlM_append]
  cases (rowCopies w cmd ctx step j cmd.dstW.toNat).foldlM (applyTransfer w) m with
  | none => rfl
  | some m2 =>
    obtain ⟨m3, hs, he⟩ := kernelRowEnd_eq w cmd ctx step draws hj (lastColumn i0 cmd.dstW.toNat) cmd.dstW.toNat m2
    change some _ = Option.map _ ((rowSlack w cmd ctx draws j).foldlM (applyTransfer w) m2)
    rw [hs]
    simp only [Option.map_some, he]
    congr 2
    simp only [runAt]
    cases scaled cmd.flags <;> simp

/-- The row loop makes the transfers of its rows. -/
theorem rowLoop_eq (j0 i0 : Word) {n : Nat} (hn : n ≤ 2 ^ 32) (m : Memory) :
    ∃ j1 i1 : Word, rowLoop (kernelUnit (table (flagsKey cmd.flags)) w)
        (kernelRowEnd (table (flagsKey cmd.flags)) w draws)
        cmd.dstW.toNat n ({ runAt w cmd ctx step 0 0 with j := j0, i := i0 }, m) =
      ((transfersOf w cmd ctx step draws n).foldlM (applyTransfer w) m).map
        fun m' => ({ runAt w cmd ctx step n 0 with j := j1, i := i1 }, m') := by
  induction n with
  | zero => exact ⟨j0, i0, rfl⟩
  | succ n ih =>
    obtain ⟨j1, i1, ih⟩ := ih (by omega)
    refine ⟨BitVec.ofNat 32 n, lastColumn i1 cmd.dstW.toNat, ?_⟩
    unfold rowLoop transfersOf at *
    rw [List.range_succ, foldlM_snoc, ih, List.flatMap_append, List.flatMap_singleton, List.foldlM_append]
    cases ((List.range n).flatMap fun j =>
        rowCopies w cmd ctx step j cmd.dstW.toNat ++ rowSlack w cmd ctx draws j).foldlM (applyTransfer w) m with
    | none => rfl
    | some m1 => exact copyRow_eq w cmd ctx step draws (by omega) j1 i1 m1

/-- What a kernel does: the transfers of all rows, in the reference order (R60, R101, R102, R129, R130). -/
theorem runKernel_eq (h : cmd.dstW ≠ 0) (h' : cmd.dstH ≠ 0) (m : Memory) :
    runKernel (table (flagsKey cmd.flags)) w draws (startRun w cmd ctx step) m =
      (transfersOf w cmd ctx step draws cmd.dstH.toNat).foldlM (applyTransfer w) m := by
  obtain ⟨j1, i1, hr⟩ := rowLoop_eq w cmd ctx step draws 0 0 cmd.dstH.isLt.le m
  have hz : ¬ ((startRun w cmd ctx step).cmd.dstW = 0 ∨ (startRun w cmd ctx step).cmd.dstH = 0) := not_or.2 ⟨h, h'⟩
  unfold runKernel
  rw [if_neg hz, startRun_eq]
  change (match rowLoop _ _ cmd.dstW.toNat cmd.dstH.toNat ({ runAt w cmd ctx step 0 0 with j := 0, i := 0 }, m) with
    | some q => some q.2
    | none => none) = _
  rw [hr]
  cases (transfersOf w cmd ctx step draws cmd.dstH.toNat).foldlM (applyTransfer w) m <;> rfl

end Sys2Proof.Machine
end

