-- ==== Sys2Proof/Laws/Transfers.lean ====
section
/-! SUPPORT. What a list of transfers does to memory: it leaves every byte it does not write, it completes when its reads hold
values and are not written, the last transfer to a unit remains, and the canonical form is kept. -/

namespace Sys2Proof.Machine

/-- The bytes a transfer writes. -/
def Transfer.writes (w : PixelWidth) : Transfer → List Word
  | .copy _ d => unitBytes w d
  | .slack d _ => [d]

/-- The bytes a transfer reads. -/
def Transfer.reads (w : PixelWidth) : Transfer → List Word
  | .copy s _ => unitBytes w s
  | .slack _ _ => []

theorem mem_unitBytes {w : PixelWidth} {a x : Word} :
    x ∈ unitBytes w a ↔ ∃ k < unitSize w, x = a + BitVec.ofNat 32 k := by
  simp only [unitBytes, List.mem_map, List.mem_range]
  exact ⟨fun ⟨k, hk, h⟩ => ⟨k, hk, h.symm⟩, fun ⟨k, hk, h⟩ => ⟨k, hk, h.symm⟩⟩

variable {w : PixelWidth}

theorem applyTransfer_wf {m m' : Memory} {t : Transfer} (h : applyTransfer w m t = some m') (hm : m.wf) : m'.wf := by
  cases t with
  | copy s d =>
    simp only [applyTransfer] at h
    split at h
    · cases h; exact memWrite_wf hm _ _
    · cases h
  | slack d x => cases h; exact memWrite_wf hm _ _

theorem applyTransfer_frame {m m' : Memory} {t : Transfer} (h : applyTransfer w m t = some m') {a : Word}
    (ha : a ∉ t.writes w) : readByte m' a = readByte m a := by
  cases t with
  | copy s d =>
    simp only [applyTransfer] at h
    split at h
    · next b hb =>
      cases h
      refine readByte_memWrite_other _ _ _ _ fun k hk e => ha (mem_unitBytes.2 ⟨k, ?_, e⟩)
      rwa [memRead_length hb] at hk
    · cases h
  | slack d x =>
    cases h
    refine readByte_memWrite_other _ _ _ _ fun k hk e => ha ?_
    have : k = 0 := by simpa using hk
    simpa [Transfer.writes, this] using e

theorem transfers_wf {l : List Transfer} {m m' : Memory} (h : l.foldlM (applyTransfer w) m = some m') (hm : m.wf) :
    m'.wf := by
  induction l generalizing m with
  | nil => cases h; exact hm
  | cons t l ih =>
    obtain ⟨m1, h1, h2⟩ := Option.bind_eq_some_iff.1 h
    exact ih h2 (applyTransfer_wf h1 hm)

/-- A byte no transfer writes is unchanged. -/
theorem transfers_frame {l : List Transfer} {m m' : Memory} (h : l.foldlM (applyTransfer w) m = some m') {a : Word}
    (ha : ∀ t ∈ l, a ∉ t.writes w) : readByte m' a = readByte m a := by
  induction l generalizing m with
  | nil => cases h; rfl
  | cons t l ih =>
    obtain ⟨m1, h1, h2⟩ := Option.bind_eq_some_iff.1 h
    rw [ih h2 fun t ht => ha t (List.mem_cons_of_mem _ ht), applyTransfer_frame h1 (ha t (by simp))]

/-- Transfers whose reads hold values and are written by none of them complete. -/
theorem transfers_complete {l : List Transfer} {m : Memory}
    (hv : ∀ t ∈ l, ∀ a ∈ t.reads w, (readByte m a).isSome = true)
    (hd : ∀ t ∈ l, ∀ a ∈ t.reads w, ∀ t' ∈ l, a ∉ t'.writes w) :
    ∃ m', l.foldlM (applyTransfer w) m = some m' := by
  induction l generalizing m with
  | nil => exact ⟨m, rfl⟩
  | cons t l ih =>
    obtain ⟨m1, h1⟩ : ∃ m1, applyTransfer w m t = some m1 := by
      cases t with
      | copy s d =>
        have := memRead_isSome (m := m) (a := s) (n := unitSize w) fun k hk =>
          hv (.copy s d) (by simp) _ (mem_unitBytes.2 ⟨k, hk, rfl⟩)
        obtain ⟨b, hb⟩ := Option.isSome_iff_exists.1 this
        exact ⟨memWrite m d b, by simp [applyTransfer, hb]⟩
      | slack d x => exact ⟨_, rfl⟩
    obtain ⟨m', h2⟩ := ih (m := m1)
      (fun t' ht' a ha => by
        rw [applyTransfer_frame h1 (hd t' (List.mem_cons_of_mem _ ht') a ha t (by simp))]
        exact hv t' (List.mem_cons_of_mem _ ht') a ha)
      (fun t' ht' a ha t'' ht'' => hd t' (List.mem_cons_of_mem _ ht') a ha t'' (List.mem_cons_of_mem _ ht''))
    exact ⟨m', Option.bind_eq_some_iff.2 ⟨m1, h1, h2⟩⟩

/-- The destination of a copy that nothing later writes holds what its source held at the start, if nothing earlier writes the
source. -/
theorem transfers_last_copy {l1 l2 : List Transfer} {s d : Word} {m m' : Memory}
    (h : (l1 ++ .copy s d :: l2).foldlM (applyTransfer w) m = some m')
    (h1 : ∀ t ∈ l1, ∀ a ∈ unitBytes w s, a ∉ t.writes w) (h2 : ∀ t ∈ l2, ∀ a ∈ unitBytes w d, a ∉ t.writes w) :
    memRead m' d (unitSize w) = memRead m s (unitSize w) := by
  rw [List.foldlM_append] at h
  obtain ⟨m1, e1, h⟩ := Option.bind_eq_some_iff.1 h
  obtain ⟨m2, e2, e3⟩ := Option.bind_eq_some_iff.1 h
  simp only [applyTransfer] at e2
  split at e2
  · next b hb =>
    cases e2
    have hl : b.length = unitSize w := memRead_length hb
    have hd : memRead m' d (unitSize w) = memRead (memWrite m1 d b) d (unitSize w) :=
      memRead_congr fun k hk => transfers_frame e3 fun t ht => h2 t ht _ (mem_unitBytes.2 ⟨k, hk, rfl⟩)
    have hs : memRead m1 s (unitSize w) = memRead m s (unitSize w) :=
      memRead_congr fun k hk => transfers_frame e1 fun t ht => h1 t ht _ (mem_unitBytes.2 ⟨k, hk, rfl⟩)
    have hw := memRead_memWrite_same m1 d b (by rw [hl]; have := unitSize_le w; omega)
    rw [hl] at hw
    rw [hd, hw, ← hs, hb]
  · cases e2

/-- A slack unit that nothing later writes holds what was drawn. -/
theorem transfers_last_slack {l1 l2 : List Transfer} {d : Word} {x : Byte} {m m' : Memory}
    (h : (l1 ++ .slack d x :: l2).foldlM (applyTransfer w) m = some m') (h2 : ∀ t ∈ l2, d ∉ t.writes w) :
    readByte m' d = some x := by
  rw [List.foldlM_append] at h
  obtain ⟨m1, e1, h⟩ := Option.bind_eq_some_iff.1 h
  have e3 : l2.foldlM (applyTransfer w) (memWrite m1 d [x]) = some m' := h
  rw [transfers_frame e3 h2]
  exact readByte_writeByte_same m1 d x

/-! Which transfers a blit makes, and in which order. -/

theorem range_split {k n : Nat} (h : k < n) :
    List.range n = List.range k ++ k :: (List.range (n - k - 1)).map (k + 1 + ·) := by
  obtain ⟨d, rfl⟩ : ∃ d, n = k + (1 + d) := ⟨n - k - 1, by omega⟩
  have e : k + (1 + d) - k - 1 = d := by omega
  rw [e, List.range_add, List.range_add]
  simp [Function.comp_def, add_assoc]

variable (cmd : Cmd) (ctx : Ctx) (step : Word) (draws : Nat → Option Byte)

/-- Every transfer of a row is one of its copies or its slack write. -/
theorem mem_row {j : Nat} {t : Transfer}
    (h : t ∈ rowCopies w cmd ctx step j cmd.dstW.toNat ++ rowSlack w cmd ctx draws j) :
    (∃ i < cmd.dstW.toNat, t = .copy (srcUnitAddr w cmd step j i) (dstUnitAddr w cmd ctx j i)) ∨
    (∃ x, slackPermitted w cmd = true ∧ draws j = some x ∧ t = .slack (slackAddr w cmd ctx j) x) := by
  rcases List.mem_append.1 h with h | h
  · obtain ⟨i, hi, rfl⟩ := List.mem_map.1 h
    exact .inl ⟨i, List.mem_range.1 hi, rfl⟩
  · refine .inr ?_
    unfold rowSlack at h
    split at h
    · next hp =>
      split at h
      · next x hx => exact ⟨x, hp, hx, by simpa using h⟩
      · cases h
    · cases h

/-- Every transfer of a blit is a copy of R153 or a slack write of R108. -/
theorem mem_transfersOf {n : Nat} {t : Transfer} (h : t ∈ transfersOf w cmd ctx step draws n) :
    (∃ j < n, ∃ i < cmd.dstW.toNat, t = .copy (srcUnitAddr w cmd step j i) (dstUnitAddr w cmd ctx j i)) ∨
    (∃ j < n, ∃ x, slackPermitted w cmd = true ∧ draws j = some x ∧ t = .slack (slackAddr w cmd ctx j) x) := by
  obtain ⟨j, hj, ht⟩ := List.mem_flatMap.1 h
  have hj := List.mem_range.1 hj
  rcases mem_row cmd ctx step draws ht with ⟨i, hi, e⟩ | ⟨x, hp, hx, e⟩
  · exact .inl ⟨j, hj, i, hi, e⟩
  · exact .inr ⟨j, hj, x, hp, hx, e⟩

/-- The copy at `(j, i)` stands in the list, and what follows it is later in the reference order (R60). -/
theorem transfersOf_split_copy {n j i : Nat} (hj : j < n) (hi : i < cmd.dstW.toNat) :
    ∃ l1 l2, transfersOf w cmd ctx step draws n =
        l1 ++ .copy (srcUnitAddr w cmd step j i) (dstUnitAddr w cmd ctx j i) :: l2 ∧
      ∀ t ∈ l2,
        (∃ j' i', j' < n ∧ i' < cmd.dstW.toNat ∧ (j < j' ∨ j = j' ∧ i < i') ∧
          t = .copy (srcUnitAddr w cmd step j' i') (dstUnitAddr w cmd ctx j' i')) ∨
        (∃ j' x, j ≤ j' ∧ j' < n ∧ slackPermitted w cmd = true ∧ draws j' = some x ∧
          t = .slack (slackAddr w cmd ctx j') x) := by
  have hrow : rowCopies w cmd ctx step j cmd.dstW.toNat = rowCopies w cmd ctx step j i ++
      .copy (srcUnitAddr w cmd step j i) (dstUnitAddr w cmd ctx j i) ::
      ((List.range (cmd.dstW.toNat - i - 1)).map (i + 1 + ·)).map fun i' =>
        Transfer.copy (srcUnitAddr w cmd step j i') (dstUnitAddr w cmd ctx j i') := by
    unfold rowCopies
    rw [range_split hi, List.map_append, List.map_cons]
  refine ⟨((List.range j).flatMap fun j' => rowCopies w cmd ctx step j' cmd.dstW.toNat ++ rowSlack w cmd ctx draws j') ++
      rowCopies w cmd ctx step j i,
    (((List.range (cmd.dstW.toNat - i - 1)).map (i + 1 + ·)).map fun i' =>
      Transfer.copy (srcUnitAddr w cmd step j i') (dstUnitAddr w cmd ctx j i')) ++ rowSlack w cmd ctx draws j ++
    ((List.range (n - j - 1)).map (j + 1 + ·)).flatMap fun j' =>
      rowCopies w cmd ctx step j' cmd.dstW.toNat ++ rowSlack w cmd ctx draws j', ?_, ?_⟩
  · unfold transfersOf
    rw [range_split hj, List.flatMap_append, List.flatMap_cons, hrow]
    simp only [List.append_assoc, List.cons_append]
  · intro t ht
    rcases List.mem_append.1 ht with ht | ht
    · rcases List.mem_append.1 ht with ht | ht
      · obtain ⟨i', hi', rfl⟩ := List.mem_map.1 ht
        obtain ⟨d, hd, rfl⟩ := List.mem_map.1 hi'
        have hd := List.mem_range.1 hd
        exact .inl ⟨j, i + 1 + d, hj, by omega, .inr ⟨rfl, by omega⟩, rfl⟩
      · rcases mem_row cmd ctx step draws (List.mem_append_right _ ht) with ⟨i', hi', e⟩ | ⟨x, hp, hx, e⟩
        · exfalso
          rw [e] at ht
          unfold rowSlack at ht
          split at ht
          · split at ht <;> simp at ht
          · cases ht
        · exact .inr ⟨j, x, le_rfl, hj, hp, hx, e⟩
    · obtain ⟨j', hj', ht⟩ := List.mem_flatMap.1 ht
      obtain ⟨d, hd, rfl⟩ := List.mem_map.1 hj'
      have hd := List.mem_range.1 hd
      rcases mem_row cmd ctx step draws ht with ⟨i', hi', e⟩ | ⟨x, hp, hx, e⟩
      · exact .inl ⟨j + 1 + d, i', by omega, hi', .inl (by omega), e⟩
      · exact .inr ⟨j + 1 + d, x, by omega, by omega, hp, hx, e⟩

/-- The slack write of row `j` stands in the list, and what follows it belongs to later rows. -/
theorem transfersOf_split_slack {n j : Nat} (hj : j < n) {x : Byte} (hp : slackPermitted w cmd = true)
    (hx : draws j = some x) :
    ∃ l1 l2, transfersOf w cmd ctx step draws n = l1 ++ .slack (slackAddr w cmd ctx j) x :: l2 ∧
      ∀ t ∈ l2,
        (∃ j' i', j < j' ∧ j' < n ∧ i' < cmd.dstW.toNat ∧
          t = .copy (srcUnitAddr w cmd step j' i') (dstUnitAddr w cmd ctx j' i')) ∨
        (∃ j' x, j < j' ∧ j' < n ∧ t = .slack (slackAddr w cmd ctx j') x) := by
  have hrow : rowSlack w cmd ctx draws j = [.slack (slackAddr w cmd ctx j) x] := by simp [rowSlack, hp, hx]
  refine ⟨((List.range j).flatMap fun j' => rowCopies w cmd ctx step j' cmd.dstW.toNat ++ rowSlack w cmd ctx draws j') ++
      rowCopies w cmd ctx step j cmd.dstW.toNat,
    ((List.range (n - j - 1)).map (j + 1 + ·)).flatMap fun j' =>
      rowCopies w cmd ctx step j' cmd.dstW.toNat ++ rowSlack w cmd ctx draws j', ?_, ?_⟩
  · unfold transfersOf
    rw [range_split hj, List.flatMap_append, List.flatMap_cons, hrow]
    simp only [List.append_assoc, List.cons_append, List.nil_append]
  · intro t ht
    obtain ⟨j', hj', ht⟩ := List.mem_flatMap.1 ht
    obtain ⟨d, hd, rfl⟩ := List.mem_map.1 hj'
    have hd := List.mem_range.1 hd
    rcases mem_row cmd ctx step draws ht with ⟨i', hi', e⟩ | ⟨x, -, -, e⟩
    · exact .inl ⟨j + 1 + d, i', by omega, by omega, hi', e⟩
    · exact .inr ⟨j + 1 + d, x, by omega, by omega, e⟩

end Sys2Proof.Machine
end

