-- ==== Sys2Proof/Laws/Blit.lean ====
section
/-! SUPPORT. What `Blit` can answer, and what a blit operation does to a state. -/

namespace Sys2Proof.Machine

/-- The clauses of `legal` that speak of sets of bytes, as statements about their members. -/
theorem legal_sets {c : Config} {cmd : Cmd} {ctx : Ctx} {m : Memory} {step : Word} (h : legal c cmd ctx m step = true) :
    (∀ a ∈ readSet c.width cmd step, a ∉ writeSet c.width cmd ctx) ∧
    (∀ a ∈ readSet c.width cmd step, platformReads c a = true ∧ (readByte m a).isSome = true) ∧
    (∀ a ∈ writeSet c.width cmd ctx, platformWrites c a = true) := by
  simp only [legal, legalDisjoint, legalAdmitted, Bool.and_eq_true, List.all_eq_true, Bool.not_eq_true',
    List.contains_eq_mem, decide_eq_false_iff_not] at h
  obtain ⟨⟨-, h5⟩, h6, h7⟩ := h
  exact ⟨h5, h6, h7⟩

variable {c : Config} {cmd : Cmd} {ctx : Ctx} {m m' : Memory} {draws : Nat → Option Byte} {step : Word}

/-- The bytes the transfers of a blit read are in its read set. -/
theorem transfer_reads {t : Transfer} (w : PixelWidth) (h : t ∈ transfersOf w cmd ctx step draws cmd.dstH.toNat) {a : Word}
    (ha : a ∈ t.reads w) : a ∈ readSet w cmd step := by
  rcases mem_transfersOf cmd ctx step draws h with ⟨j, hj, i, hi, rfl⟩ | ⟨j, hj, x, hp, hx, rfl⟩
  · exact List.mem_append_left _ (List.mem_flatMap.2 ⟨j, List.mem_range.2 hj, List.mem_flatMap.2
      ⟨i, List.mem_range.2 hi, ha⟩⟩)
  · cases ha

/-- The bytes the transfers of a blit write are in its write set: the rectangle, or a slack unit. -/
theorem transfer_writes {t : Transfer} (w : PixelWidth) (h : t ∈ transfersOf w cmd ctx step draws cmd.dstH.toNat)
    {a : Word} (ha : a ∈ t.writes w) : a ∈ nominalBytes w cmd ctx ∨ a ∈ slackBytes w cmd ctx := by
  rcases mem_transfersOf cmd ctx step draws h with ⟨j, hj, i, hi, rfl⟩ | ⟨j, hj, x, hp, hx, rfl⟩
  · exact .inl (List.mem_flatMap.2 ⟨j, List.mem_range.2 hj, List.mem_flatMap.2 ⟨i, List.mem_range.2 hi, ha⟩⟩)
  · refine .inr ?_
    have hw : a = slackAddr w cmd ctx j := by simpa [Transfer.writes] using ha
    simp only [slackBytes, hp, ↓reduceIte]
    exact List.mem_flatMap.2 ⟨j, List.mem_range.2 hj, mem_unitBytes.2 ⟨0, unitSize_pos w, by simp [hw]⟩⟩

/-- A legal blit's transfers complete (R11, R156). -/
theorem transfers_of_legal (h : legal c cmd ctx m step = true) (draws : Nat → Option Byte) :
    ∃ m', (transfersOf c.width cmd ctx step draws cmd.dstH.toNat).foldlM (applyTransfer c.width) m = some m' := by
  obtain ⟨h5, h6, -⟩ := legal_sets h
  refine transfers_complete (fun t ht a ha => (h6 a (transfer_reads _ ht ha)).2) fun t ht a ha t' ht' ha' => ?_
  exact h5 a (transfer_reads _ ht ha) (List.mem_append.2 (transfer_writes _ ht' ha'))

/-- What `Blit` does where the command copies (R143 step 5). -/
theorem blit_copies (hd : ctx.suppressDraw = false) (hw : cmd.dstW ≠ 0#32) (hh : cmd.dstH ≠ 0#32)
    (hs : stepOf cmd = some step) (hl : legal c cmd ctx m step = true) (draws : Nat → Option Byte) :
    ∃ m', blit c cmd ctx m draws = .ok (m', slackRows c.width cmd) ∧
      (transfersOf c.width cmd ctx step draws cmd.dstH.toNat).foldlM (applyTransfer c.width) m = some m' := by
  obtain ⟨m', h⟩ := transfers_of_legal hl draws
  refine ⟨m', ?_, h⟩
  have hk := runKernel_eq c.width cmd ctx step draws hw hh m
  rw [h] at hk
  unfold blit
  simp [hd, hs, hw, hh, hl, hk]

/-- The three answers of `Blit` with a memory or a refusal (R143, R144). -/
theorem blit_ok {used : Nat} (h : blit c cmd ctx m draws = .ok (m', used)) :
    (m' = m ∧ used = 0 ∧ (ctx.suppressDraw = true ∨ cmd.dstW = 0#32 ∨ cmd.dstH = 0#32)) ∨
    (∃ step, ctx.suppressDraw = false ∧ cmd.dstW ≠ 0#32 ∧ cmd.dstH ≠ 0#32 ∧ stepOf cmd = some step ∧
      legal c cmd ctx m step = true ∧ used = slackRows c.width cmd ∧
      (transfersOf c.width cmd ctx step draws cmd.dstH.toNat).foldlM (applyTransfer c.width) m = some m') := by
  unfold blit at h
  split at h
  · next hs =>
    cases h
    exact .inl ⟨rfl, rfl, .inl hs.1⟩
  · split at h
    · cases h
    · next step hs =>
      split at h
      · next hd =>
        cases h
        exact .inl ⟨rfl, rfl, .inl hd⟩
      · next hd =>
        split at h
        · next hz =>
          cases h
          exact .inl ⟨rfl, rfl, .inr hz⟩
        · next hz =>
          obtain ⟨hw, hh⟩ := not_or.1 hz
          split at h
          · next hl =>
            rw [runKernel_eq c.width cmd ctx step draws hw hh m] at h
            split at h
            · next hk =>
              cases h
              exact .inr ⟨step, by simpa using hd, hw, hh, hs, hl, rfl, hk⟩
            · cases h
          · cases h

/-- A blit leaves every byte outside the rectangle and the slack units (R153). -/
theorem blit_frame {used : Nat} (h : blit c cmd ctx m draws = .ok (m', used)) {a : Word}
    (h1 : a ∉ nominalBytes c.width cmd ctx) (h2 : a ∉ slackBytes c.width cmd ctx) : readByte m' a = readByte m a := by
  rcases blit_ok h with ⟨rfl, -⟩ | ⟨step, -, -, -, -, -, -, hk⟩
  · rfl
  · exact transfers_frame hk fun t ht ha => (transfer_writes _ ht ha).elim h1 h2

theorem blit_wf {used : Nat} (h : blit c cmd ctx m draws = .ok (m', used)) (hm : m.wf) : m'.wf := by
  rcases blit_ok h with ⟨rfl, -⟩ | ⟨step, -, -, -, -, -, -, hk⟩
  · exact hm
  · exact transfers_wf hk hm

/-- What a blit operation does to a state that it leaves (R143, R173). -/
theorem runBlit_next {key : BitVec 3} {oe : Bool} {s t : State} (h : runBlit key oe s = .next t) :
    ∃ used, blit s.cfg (commandFor key oe s) (snapshotCtx s.regs) s.mem (slackDraws s) = .ok (t.mem, used) ∧
      t = { s with mem := t.mem, draws := s.draws + used } := by
  unfold runBlit at h
  split at h
  · next m used hb =>
    cases h
    exact ⟨used, hb, rfl⟩
  · cases h

/-- The unit transfers of the sequencer keep the canonical form. -/
theorem kernelUnit_wf {k : Kernel} {w : PixelWidth} {r r' : Run} (h : kernelUnit k w r m = some (r', m')) (hm : m.wf) :
    m'.wf := by
  cases k <;> simp only [kernelUnit, straightUnit, mirroredUnit, scaledStraightUnit, scaledMirroredUnit] at h <;>
    (split at h
     · cases h
       exact memWrite_wf hm _ _
     · cases h)

/-- A unit transfer leaves the command and the position alone; `tick` moves the position. -/
theorem kernelUnit_fields {k : Kernel} {w : PixelWidth} {r r' : Run} (h : kernelUnit k w r m = some (r', m')) :
    r'.cmd = r.cmd ∧ r'.j = r.j ∧ r'.i = r.i := by
  cases k <;> simp only [kernelUnit, straightUnit, mirroredUnit, scaledStraightUnit, scaledMirroredUnit] at h <;>
    (split at h
     · cases h
       exact ⟨rfl, rfl, rfl⟩
     · cases h)

@[simp] theorem kernelRowEnd_cmd (k : Kernel) (w : PixelWidth) (draws : Nat → Option Byte) (r : Run) (m : Memory) :
    (kernelRowEnd k w draws r m).1.cmd = r.cmd := by
  cases k <;> rfl

theorem slackWrite_wf (w : PixelWidth) (draws : Nat → Option Byte) (r : Run) (a : Word) (hm : m.wf) :
    (slackWrite w draws r m a).wf := by
  unfold slackWrite
  split
  · split
    · exact memWrite_wf hm _ _
    · exact hm
  · exact hm

theorem kernelRowEnd_wf (k : Kernel) (w : PixelWidth) (draws : Nat → Option Byte) (r : Run) (hm : m.wf) :
    (kernelRowEnd k w draws r m).2.wf := by
  cases k
  · exact slackWrite_wf w draws r _ hm
  · exact slackWrite_wf w draws r _ hm
  · exact hm
  · exact hm

theorem tick_wf {k : Kernel} {w : PixelWidth} {r : Run} {r' : Option Run} (h : tick k w draws r m = some (r', m'))
    (hm : m.wf) : m'.wf := by
  unfold tick at h
  split at h
  · cases h
  · next r1 m1 hu =>
    have h1 := kernelUnit_wf hu hm
    split at h
    · cases h; exact h1
    · split at h
      · cases h; exact kernelRowEnd_wf k w draws r1 h1
      · cases h; exact kernelRowEnd_wf k w draws r1 h1

theorem ticks_wf {k : Kernel} {w : PixelWidth} {n : Nat} {r r' : Option Run}
    (h : ticks k w draws n r m = some (r', m')) (hm : m.wf) : m'.wf := by
  induction n generalizing r m with
  | zero => cases h; exact hm
  | succ n ih =>
    cases r with
    | none => cases h; exact hm
    | some r =>
      unfold ticks at h
      split at h
      · cases h
      · next r1 m1 ht => exact ih h (tick_wf ht hm)

/-- What finishing a blit in progress does to a state that it leaves. -/
theorem resumeBlit_next {r : Run} {s t : State} (h : resumeBlit r s = .next t) :
    t = s.finishBlit t.mem (slackRows s.cfg.width r.cmd) ∧ (s.mem.wf → t.mem.wf) := by
  unfold resumeBlit at h
  split at h
  · next r' m hk =>
    cases h
    exact ⟨rfl, fun hm => ticks_wf hk hm⟩
  · cases h

end Sys2Proof.Machine
end

