-- ==== Sys2Proof/Laws/PerInstr.lean ====
section
/-! SUPPORT. Facts about every instruction as syntax. Family TableRow: the encoder's word meets the match and mask columns of the
instruction's row in spec/opcode_table.json. -/

namespace Sys2Proof.Laws

/-- A code word as the number the opcode table matches. -/
def codeNumber : CodeWord → Nat
  | .cmd f => f.toNat
  | .tw t => t.toNat

/-- The mask and match columns of spec/opcode_table.json. -/
def tableRow : Instr → Nat × Nat
  | .blt _ => (0x00000007, 0x00000000)
  | .bltH _ => (0x00000007, 0x00000001)
  | .bltV _ => (0x00000007, 0x00000002)
  | .bltHV _ => (0x00000007, 0x00000003)
  | .blts _ => (0x00000007, 0x00000004)
  | .bltsH _ => (0x00000007, 0x00000005)
  | .bltsV _ => (0x00000007, 0x00000006)
  | .bltsHV _ => (0x00000007, 0x00000007)
  | .wrSrcBase _ => (0x7F00000000, 0x4000000000)
  | .wrSrcW _ => (0x7F00000000, 0x4400000000)
  | .wrSrcH _ => (0x7F00000000, 0x4800000000)
  | .wrSrcStride _ => (0x7F00000000, 0x4C00000000)
  | .wrSrcX _ => (0x7F00000000, 0x5000000000)
  | .wrSrcY _ => (0x7F00000000, 0x5400000000)
  | .wrDstX _ => (0x7F00000000, 0x5800000000)
  | .wrDstY _ => (0x7F00000000, 0x5C00000000)
  | .wrDstW _ => (0x7F00000000, 0x6000000000)
  | .wrDstH _ => (0x7F00000000, 0x6400000000)
  | .wrScale _ => (0x7F00000000, 0x6800000000)
  | .wrFlags _ => (0x7F00000000, 0x6C00000000)
  | .wrFbBase _ => (0x7F00000000, 0x7000000000)
  | .wrFbPitch _ => (0x7F00000000, 0x7400000000)
  | .wrCtrl _ => (0x7F00000000, 0x7800000000)
  | .go => (0x7F00000001, 0x7C00000001)
  | .wrStartEven => (0x7F00000001, 0x7C00000000)
  | .rdSrcBase => (0x7F00000000, 0x0000000000)
  | .rdSrcW => (0x7F00000000, 0x0400000000)
  | .rdSrcH => (0x7F00000000, 0x0800000000)
  | .rdSrcStride => (0x7F00000000, 0x0C00000000)
  | .rdSrcX => (0x7F00000000, 0x1000000000)
  | .rdSrcY => (0x7F00000000, 0x1400000000)
  | .rdDstX => (0x7F00000000, 0x1800000000)
  | .rdDstY => (0x7F00000000, 0x1C00000000)
  | .rdDstW => (0x7F00000000, 0x2000000000)
  | .rdDstH => (0x7F00000000, 0x2400000000)
  | .rdScale => (0x7F00000000, 0x2800000000)
  | .rdFlags => (0x7F00000000, 0x2C00000000)
  | .rdFbBase => (0x7F00000000, 0x3000000000)
  | .rdFbPitch => (0x7F00000000, 0x3400000000)
  | .rdCtrl => (0x7F00000000, 0x3800000000)
  | .rdStart => (0x7F00000000, 0x3C00000000)

theorem flagsWord_mask (key : BitVec 3) (oe : Bool) : (flagsWord key oe).toNat &&& 0x00000007 = key.toNat := by
  revert key oe
  decide

theorem mkTW_mask (we : Bool) (off : BitVec 6) (d : Word) :
    (mkTW we off d).toNat &&& 0x7F00000000 = (mkTW we off 0#32).toNat := by
  have h : mkTW we off d &&& (127#7 ++ 0#32 : TW) = mkTW we off 0#32 := by
    apply BitVec.eq_of_getLsbD_eq
    intro k hk
    unfold mkTW
    simp only [BitVec.getLsbD_and, BitVec.getLsbD_append]
    split
    · simp
    · have h7 : (127#7).getLsbD (k - 32) = true := by
        have : ∀ n : Fin 7, (127#7).getLsbD n = true := by decide
        exact this ⟨k - 32, by omega⟩
      rw [h7, Bool.and_true]
  exact (congrArg BitVec.toNat h)

namespace TableRow

/-- The encoder's word of an instruction has the match bits of its row under the row's mask. -/
def Statement (i : Instr) : Prop := codeNumber (encode i) &&& (tableRow i).1 = (tableRow i).2

theorem blt (oe : Bool) : Statement (.blt oe) := flagsWord_mask 0#3 oe
theorem bltH (oe : Bool) : Statement (.bltH oe) := flagsWord_mask 1#3 oe
theorem bltV (oe : Bool) : Statement (.bltV oe) := flagsWord_mask 2#3 oe
theorem bltHV (oe : Bool) : Statement (.bltHV oe) := flagsWord_mask 3#3 oe
theorem blts (oe : Bool) : Statement (.blts oe) := flagsWord_mask 4#3 oe
theorem bltsH (oe : Bool) : Statement (.bltsH oe) := flagsWord_mask 5#3 oe
theorem bltsV (oe : Bool) : Statement (.bltsV oe) := flagsWord_mask 6#3 oe
theorem bltsHV (oe : Bool) : Statement (.bltsHV oe) := flagsWord_mask 7#3 oe
theorem wrSrcBase (value : Word) : Statement (.wrSrcBase value) := mkTW_mask true _ value
theorem wrSrcW (value : Word) : Statement (.wrSrcW value) := mkTW_mask true _ value
theorem wrSrcH (value : Word) : Statement (.wrSrcH value) := mkTW_mask true _ value
theorem wrSrcStride (value : Word) : Statement (.wrSrcStride value) := mkTW_mask true _ value
theorem wrSrcX (value : Word) : Statement (.wrSrcX value) := mkTW_mask true _ value
theorem wrSrcY (value : Word) : Statement (.wrSrcY value) := mkTW_mask true _ value
theorem wrDstX (value : Word) : Statement (.wrDstX value) := mkTW_mask true _ value
theorem wrDstY (value : Word) : Statement (.wrDstY value) := mkTW_mask true _ value
theorem wrDstW (value : Word) : Statement (.wrDstW value) := mkTW_mask true _ value
theorem wrDstH (value : Word) : Statement (.wrDstH value) := mkTW_mask true _ value
theorem wrScale (value : Word) : Statement (.wrScale value) := mkTW_mask true _ value
theorem wrFlags (value : Word) : Statement (.wrFlags value) := mkTW_mask true _ value
theorem wrFbBase (value : Word) : Statement (.wrFbBase value) := mkTW_mask true _ value
theorem wrFbPitch (value : Word) : Statement (.wrFbPitch value) := mkTW_mask true _ value
theorem wrCtrl (value : Word) : Statement (.wrCtrl value) := mkTW_mask true _ value
theorem go : Statement .go := rfl
theorem wrStartEven : Statement .wrStartEven := rfl
theorem rdSrcBase : Statement .rdSrcBase := rfl
theorem rdSrcW : Statement .rdSrcW := rfl
theorem rdSrcH : Statement .rdSrcH := rfl
theorem rdSrcStride : Statement .rdSrcStride := rfl
theorem rdSrcX : Statement .rdSrcX := rfl
theorem rdSrcY : Statement .rdSrcY := rfl
theorem rdDstX : Statement .rdDstX := rfl
theorem rdDstY : Statement .rdDstY := rfl
theorem rdDstW : Statement .rdDstW := rfl
theorem rdDstH : Statement .rdDstH := rfl
theorem rdScale : Statement .rdScale := rfl
theorem rdFlags : Statement .rdFlags := rfl
theorem rdFbBase : Statement .rdFbBase := rfl
theorem rdFbPitch : Statement .rdFbPitch := rfl
theorem rdCtrl : Statement .rdCtrl := rfl
theorem rdStart : Statement .rdStart := rfl

end TableRow

end Sys2Proof.Laws
end

