-- ==== Sys2Proof/Laws/Registers.lean ====
section
/-! SUPPORT. The laws of the register file: a read after a write of the same register and of another one. -/

namespace Sys2Proof.Machine

/-- What a register write stores of a value (R79, R171). -/
def storedBits (r : RegName) (v : Word) : Word :=
  match r with
  | .flags => v &&& flagsMask
  | .ctrl => v &&& ctrlMask
  | .start => 0
  | _ => v

theorem readReg_writeReg_same (r : RegName) (v : Word) (g : Regs) : readReg r (writeReg r v g) = storedBits r v := by
  cases r <;> simp [readReg, writeReg, storedBits, BitVec.and_assoc]

theorem readReg_writeReg_other {r r' : RegName} (h : r' ≠ r) (v : Word) (g : Regs) :
    readReg r' (writeReg r v g) = readReg r' g := by
  cases r <;> cases r' <;> first | rfl | exact absurd rfl h

theorem writeReg_comm {r r' : RegName} (h : r ≠ r') (v v' : Word) (g : Regs) :
    writeReg r' v' (writeReg r v g) = writeReg r v (writeReg r' v' g) := by
  cases r <;> cases r' <;> first | rfl | exact absurd rfl h

theorem writeReg_writeReg_same (r : RegName) (v v' : Word) (g : Regs) :
    writeReg r v' (writeReg r v g) = writeReg r v' g := by
  cases r <;> rfl

end Sys2Proof.Machine
end

