-- ==== Sys2Proof/Laws/Step.lean ====
section
/-! SUPPORT. What an instruction and a step can do, said once. -/

namespace Sys2Proof.Machine

/-- The eight blit operations run `Blit` with their own key. -/
theorem exec_blitInstr (key : BitVec 3) (oe : Bool) (s : State) : exec (blitInstr key oe) s = runBlit key oe s :=
  blitInstr_cases (fun key => exec (blitInstr key oe) s = runBlit key oe s) rfl rfl rfl rfl rfl rfl rfl rfl key

/-- A register write is `writeReg` and nothing else (R171); a write of START writes no register. -/
theorem exec_writeInstr {r : RegName} (h : r ≠ .start) (v : Word) (s : State) :
    exec (writeInstr r v) s = .next (s.withRegs (writeReg r v s.regs)) := by
  cases r <;> first | rfl | exact absurd rfl h

/-- A register read answers the host and does nothing else (R172). -/
theorem exec_readInstr (r : RegName) (s : State) :
    exec (readInstr r) s = .next (s.withReply (.word (readReg r s.regs))) := by
  cases r <;> rfl

/-- GO runs the operation FLAGS selects (R72, R73). -/
theorem exec_go (s : State) :
    exec .go s = runBlit (flagsKey (readReg .flags s.regs)) (flagsOE (readReg .flags s.regs)) s := by
  change execGo s = _
  unfold execGo
  exact blitInstr_cases (fun key => (match key.toNat with
    | 0 => execBlt (flagsOE (readReg .flags s.regs)) s
    | 1 => execBltH (flagsOE (readReg .flags s.regs)) s
    | 2 => execBltV (flagsOE (readReg .flags s.regs)) s
    | 3 => execBltHV (flagsOE (readReg .flags s.regs)) s
    | 4 => execBlts (flagsOE (readReg .flags s.regs)) s
    | 5 => execBltsH (flagsOE (readReg .flags s.regs)) s
    | 6 => execBltsV (flagsOE (readReg .flags s.regs)) s
    | _ => execBltsHV (flagsOE (readReg .flags s.regs)) s) = runBlit key (flagsOE (readReg .flags s.regs)) s)
    rfl rfl rfl rfl rfl rfl rfl rfl _

/-- Under GO the operation's own command is START's snapshot (R38, R173). -/
theorem commandFor_flags (s : State) :
    commandFor (flagsKey (readReg .flags s.regs)) (flagsOE (readReg .flags s.regs)) s = snapshotCmd s.regs := by
  simp only [commandFor, snapshotCmd, flagsWord_of_read]
  simp [readReg, BitVec.and_assoc]

/-- The next states of an access that runs: a register written, the host answered, nothing, or a blit made. -/
theorem exec_access_next {t : TW} {i : Instr} {s s' : State} (hd : decodeTW t = .ok i) (h : exec i s = .next s') :
    (∃ r v, r ≠ .start ∧ i = writeInstr r v ∧ s' = s.withRegs (writeReg r v s.regs)) ∨
    (∃ a, s' = s.withReply a) ∨ s' = s ∨
    (i = .go ∧ ∃ used,
      blit s.cfg (snapshotCmd s.regs) (snapshotCtx s.regs) s.mem (slackDraws s) = .ok (s'.mem, used) ∧
      s' = { s with mem := s'.mem, draws := s.draws + used }) := by
  obtain ⟨r, rfl⟩ := decodeTW_ok hd
  cases hw : twWrite t
  · simp only [hw, Bool.false_eq_true, ↓reduceIte, exec_readInstr, Host.Outcome.next.injEq] at h
    exact .inr (.inl ⟨_, h.symm⟩)
  · simp only [hw, ↓reduceIte] at h ⊢
    by_cases hr : r = .start
    · subst hr
      cases hv : (twData t).getLsbD 0
      · have hi : writeInstr .start (twData t) = .wrStartEven := writeInstr_start_even hv
        rw [hi] at h
        cases h
        exact .inr (.inr (.inl rfl))
      · have hi : writeInstr .start (twData t) = .go := writeInstr_start_odd hv
        rw [hi, exec_go] at h
        obtain ⟨used, hb, ht⟩ := runBlit_next h
        rw [commandFor_flags] at hb
        exact .inr (.inr (.inr ⟨hi, used, hb, ht⟩))
    · rw [exec_writeInstr hr] at h
      cases h
      exact .inl ⟨r, _, hr, rfl, rfl⟩

/-- The next states of a step: a blit in progress is finished; the idle engine stays; an access runs; the host stores or loads a byte;
the engine is reset. -/
theorem step_next {s s' : State} (h : step s = .next s') :
    (∃ r, s.run = some r ∧ resumeBlit r s = .next s') ∨
    (s.run = none ∧
      ((s.host = [] ∧ s' = s) ∨
       (∃ a rest i, s.host = .access a :: rest ∧ a.wellFormed = true ∧ decodeTW a.tw = .ok i ∧
          exec i (s.withHost rest) = .next s') ∨
       (∃ a b rest, s.host = .storeByte a b :: rest ∧ platformWrites s.cfg a = true ∧
          s' = (s.withHost rest).withMem (writeByte s.mem a b)) ∨
       (∃ a b rest, s.host = .loadByte a :: rest ∧ readByte s.mem a = some b ∧
          s' = (s.withHost rest).withReply (.byte b)) ∨
       (∃ rest, s.host = .reset :: rest ∧ s' = resetEngine (s.withHost rest)))) := by
  unfold step at h
  split at h
  · next r hr => exact .inl ⟨r, hr, h⟩
  · next hr =>
    refine .inr ⟨hr, ?_⟩
    unfold stepIdle at h
    split at h
    · next hh =>
      cases h
      exact .inl ⟨hh, rfl⟩
    · next op rest hh =>
      cases op with
      | access a =>
        simp only [performOp, performAccess] at h
        split at h
        · next hw =>
          split at h
          · next i hd => exact .inr (.inl ⟨a, rest, i, hh, hw, hd, h⟩)
          · cases h
        · cases h
      | storeByte a b =>
        simp only [performOp, hostStore] at h
        split at h
        · next hp =>
          cases h
          exact .inr (.inr (.inl ⟨a, b, rest, hh, hp, rfl⟩))
        · cases h
      | loadByte a =>
        simp only [performOp, hostLoad] at h
        split at h
        · split at h
          · next b hb =>
            cases h
            exact .inr (.inr (.inr (.inl ⟨a, b, rest, hh, hb, rfl⟩)))
          · cases h
        · cases h
      | reset =>
        cases h
        exact .inr (.inr (.inr (.inr ⟨rest, hh, rfl⟩)))

end Sys2Proof.Machine
end

