-- ==== Sys2Proof/Tests/Slice0.lean ====
section
/-! SUPPORT. Tests. Every expected value is the spec's own: 95_test_vectors.md (S<n>, V<n>, P<n>), spec/opcode_table.json or a
worked example of a rule, as each comment says. -/

namespace Sys2Proof.Tests

/-! One theorem at a time: the kernel's evaluations would otherwise take one thread each. -/
set_option Elab.async false

open Sys2Proof Sys2Proof.Machine

/-! Well-formedness (R80, R176): one ill-formed access for each check. -/

theorem test_halfword_access_refused : Access.isWord ⟨.half, 0x6C00000001#39⟩ = false := by decide
theorem test_byte_access_ill_formed : Access.wellFormed ⟨.byte, 0x6C00000001#39⟩ = false := by decide
theorem test_offset_2_ill_formed : Access.isAligned ⟨.word, 0x4200000000#39⟩ = false := by decide
theorem test_word_access_well_formed : Access.wellFormed ⟨.word, 0x6C00000001#39⟩ = true := by decide

/-! Decoding: the words are written out from the match column of spec/opcode_table.json (blits, reads) and from programs P1 and P5 of
95_test_vectors.md (writes). -/

theorem test_decode_blits :
    [0x0, 0x1, 0x2, 0x3, 0x4, 0x5, 0x6, 0x7].map (decodeTableWord 32) =
      [some (.blt false), some (.bltH false), some (.bltV false), some (.bltHV false),
       some (.blts false), some (.bltsH false), some (.bltsV false), some (.bltsHV false)] := by decide

theorem test_decode_blits_with_edges :
    [0x8, 0x9, 0xA, 0xB, 0xC, 0xD, 0xE, 0xF].map (decodeTableWord 32) =
      [some (.blt true), some (.bltH true), some (.bltV true), some (.bltHV true),
       some (.blts true), some (.bltsH true), some (.bltsV true), some (.bltsHV true)] := by decide

theorem test_decode_command_writes :
    [0x4000001000, 0x4400000004, 0x4800000004, 0x4C00000004, 0x5000000000, 0x5400000000, 0x5800000001, 0x5C00000001,
     0x6000000004, 0x6400000004, 0x6800020000, 0x6C00000003].map (decodeTableWord 40) =
      [some (.wrSrcBase 0x1000#32), some (.wrSrcW 4#32), some (.wrSrcH 4#32), some (.wrSrcStride 4#32),
       some (.wrSrcX 0#32), some (.wrSrcY 0#32), some (.wrDstX 1#32), some (.wrDstY 1#32), some (.wrDstW 4#32),
       some (.wrDstH 4#32), some (.wrScale 0x20000#32), some (.wrFlags 3#32)] := by decide

theorem test_decode_context_writes_and_start :
    [0x7000002000, 0x7400000008, 0x7800000001, 0x7C00000001, 0x7C00000000].map (decodeTableWord 40) =
      [some (.wrFbBase 0x2000#32), some (.wrFbPitch 8#32), some (.wrCtrl 1#32), some .go, some .wrStartEven] := by
  decide

theorem test_decode_reads :
    [0x0000000000, 0x0400000000, 0x0800000000, 0x0C00000000, 0x1000000000, 0x1400000000, 0x1800000000, 0x1C00000000,
     0x2000000000, 0x2400000000, 0x2800000000, 0x2C00000000, 0x3000000000, 0x3400000000, 0x3800000000,
     0x3C00000000].map (decodeTableWord 40) =
      [some .rdSrcBase, some .rdSrcW, some .rdSrcH, some .rdSrcStride, some .rdSrcX, some .rdSrcY, some .rdDstX,
       some .rdDstY, some .rdDstW, some .rdDstH, some .rdScale, some .rdFlags, some .rdFbBase, some .rdFbPitch,
       some .rdCtrl, some .rdStart] := by decide

/-- V39, V40: bit 0 of the data decides. -/
theorem test_decode_start_data :
    [0x7CFFFFFFFF, 0x7C00000002].map (decodeTableWord 40) = [some .go, some .wrStartEven] := by decide

theorem test_decode_misaligned_offset : decodeTableWord 40 0x6D00000001 = none := by decide

/-! Pixel format: V1 to V5, and the example of R91. -/

theorem test_unit_size : unitSize .w8 = 1 ∧ unitSize .w16 = 2 := by decide
theorem test_swap_unit : swapUnit .w8 [0x7F#8] = [0x7F#8] ∧ swapUnit .w16 [0x12#8, 0x34#8] = [0x34#8, 0x12#8] := by decide
theorem test_dec_write :
    decWrite [] 0x2010#32 (swapUnit .w16 [0xA1#8, 0xB1#8]) = [(0x2010, 0xA1#8), (0x2011, 0xB1#8)] := by decide
theorem test_aligned :
    (aligned 0x2006#32 4, aligned 0x2008#32 4, aligned 0x2007#32 2) = (false, true, false) := by decide

/-! Addresses and orientation: V7 to V11. -/

def zeroCmd : Cmd := Regs.zero.cmd

theorem test_src_addr :
    srcAddr .w8 { zeroCmd with srcBase := 0x1000#32, srcStride := 4#32 } 2 1 = 0x1009#32 ∧
    srcAddr .w16 { zeroCmd with srcBase := 0x1000#32, srcStride := 2#32 } 1 1 = 0x1006#32 := by decide

theorem test_dst_addr :
    dstAddr .w8 ⟨0x20000#32, 320#32, false⟩ 5 10 = 0x2064A#32 ∧ dstAddr .w16 ⟨0x2000#32, 8#32, false⟩ 1 1 = 0x2012#32 ∧
    dstAddr .w16 ⟨0x2000#32, 8#32, false⟩ 2 1 = 0x2022#32 := by decide

theorem test_orient :
    orient .w8 { zeroCmd with dstX := 1#32, dstY := 1#32, dstH := 4#32 } ⟨0x2000#32, 8#32, false⟩ =
      (0x2009#32, 0x00000008#32) ∧
    orient .w8 { zeroCmd with dstX := 1#32, dstY := 1#32, dstH := 4#32, flags := 2#32 } ⟨0x2000#32, 8#32, false⟩ =
      (0x2021#32, 0xFFFFFFF8#32) := by decide

/-! The reciprocal and the accumulators: V12 to V20. -/

theorem test_recip_step :
    [0x00010000#32, 0x00020000#32, 0x00008000#32, 0x00040000#32, 0x00030000#32, 0x00018000#32, 0x00028000#32,
     0x00010001#32, 0x0000FFFF#32, 0x00000002#32, 0x00000003#32, 0x7FFFFFFF#32].map recipStep =
    [some 0x00010000#32, some 0x00008000#32, some 0x00020000#32, some 0x00004000#32, some 0x00005555#32,
     some 0x0000AAAA#32, some 0x00006666#32, some 0x0000FFFF#32, some 0x00010001#32, some 0x80000000#32,
     some 0x55555555#32, some 0x00000002#32] := by decide +kernel

theorem test_recip_step_refuses :
    [0x00000000#32, 0x00000001#32, 0x80000000#32, 0xFFFFFFFF#32].map recipStep = [none, none, none, none] := by decide

/-- The columns V12 to V18 sample. -/
def cols (srcX step srcW : Word) (n : Nat) : List Nat :=
  (List.range n).map fun i => (srcCol { zeroCmd with srcX := srcX, srcW := srcW } step i).toNat

theorem test_src_col_truncated : cols 0 0x5555#32 4 13 = [0, 0, 0, 0, 1, 1, 1, 2, 2, 2, 3, 3, 3] := by decide +kernel
theorem test_src_col_wraps :
    cols 3 0x10000#32 16 18 = [3, 4, 5, 6, 7, 8, 9, 10, 11, 12, 13, 14, 15, 0, 1, 2, 3, 4] := by decide +kernel
theorem test_src_col_fraction : cols 2 0xAAAA#32 4 8 = [2, 2, 3, 3, 0, 1, 1, 2] := by decide +kernel
theorem test_src_col_accumulator_wraps : cols 0xFFFF#32 0x10000#32 16 3 = [15, 0, 1] := by decide +kernel
theorem test_src_col_drops_high_bits : cols 0x10003#32 0x10000#32 16 3 = [3, 4, 5] := by decide +kernel

theorem test_src_row :
    (List.range 2).map (srcRow { zeroCmd with srcY := 3#32, srcH := 4#32 } 0x10000#32) = [3#32, 0#32] ∧
    (List.range 4).map (srcRow { zeroCmd with srcH := 4#32 } 0x8000#32) = [0#32, 0#32, 1#32, 1#32] := by decide +kernel

/-! Blits: the start state of V21 to V28, and for W = 16 that of V29 to V31. -/

/-- Bytes at rising addresses. -/
def cells (base : Nat) (bytes : List Byte) : Memory := bytes.zipIdx.map fun p => (base + p.2, p.1)

/-- `10 11 ... 1F` at 0x1000 and 48 zero bytes at 0x2000. -/
def mem8 : Memory :=
  cells 0x1000 ((List.range 16).map fun k => BitVec.ofNat 8 (0x10 + k)) ++ cells 0x2000 (List.replicate 48 0#8)

/-- `A1 B1 A2 B2 A3 B3 A4 B4` at 0x1000 and 64 zero bytes at 0x2000. -/
def mem16 : Memory :=
  cells 0x1000 [0xA1#8, 0xB1#8, 0xA2#8, 0xB2#8, 0xA3#8, 0xB3#8, 0xA4#8, 0xB4#8] ++
    cells 0x2000 (List.replicate 64 0#8)

/-- The command of V22. -/
def cmd22 : Cmd :=
  { srcBase := 0x1000, srcW := 4, srcH := 4, srcStride := 4, srcX := 0, srcY := 0, dstX := 1, dstY := 1, dstW := 4
    dstH := 4, scale := 0, flags := 0 }

/-- The command of V23. -/
def cmd23 : Cmd := { cmd22 with dstX := 0, dstW := 8, scale := 0x20000 }

/-- The command of V29. -/
def cmd29 : Cmd :=
  { srcBase := 0x1000, srcW := 2, srcH := 2, srcStride := 2, srcX := 0, srcY := 0, dstX := 1, dstY := 1, dstW := 2
    dstH := 2, scale := 0, flags := 0 }

/-- The command of V30. -/
def cmd30 : Cmd := { cmd29 with dstX := 2, dstY := 0, dstW := 4, dstH := 4, scale := 0x20000 }

/-- A state with a command, a suppression bit and a pitch, W = 8. -/
def state8 (c : Cmd) (ctrl : Word) (pitch : Word) : State :=
  { State.reset with regs := ⟨c, 0x2000, pitch, ctrl⟩, mem := mem8 }

/-- A state with a command, W = 16. -/
def state16 (c : Cmd) : State :=
  { State.reset with cfg := { Config.atReset with width := .w16 }, regs := ⟨c, 0x2000, 8, 0⟩, mem := mem16 }

/-- The `n` bytes at an address after an instruction; none if it does not complete or a byte holds no value. -/
def bytesAfter (o : Host.Outcome State Fault Refusal) (a : Word) (n : Nat) : Option (List Byte) :=
  match o with
  | .next t => memRead t.mem a n
  | .refused _ => none

/-- The refusal an instruction ends in. -/
def refusalOf (o : Host.Outcome State Fault Refusal) : Option Refusal :=
  match o with
  | .next _ => none
  | .refused e => some e

/-- V21. -/
theorem test_blt_subrectangle :
    bytesAfter (exec (.blt false) (state8 { cmd22 with srcX := 1, srcY := 2, dstX := 5, dstY := 0, dstW := 2, dstH := 2 } 0 8))
      0x2000 16 =
      some [0, 0, 0, 0, 0, 0x19, 0x1A, 0, 0, 0, 0, 0, 0, 0x1D, 0x1E, 0] := by decide +kernel

/-- V22, framebuffer rows 1 and 2. -/
theorem test_blt : bytesAfter (exec (.blt false) (state8 cmd22 0 8)) 0x2008 16 =
    some [0, 0x10, 0x11, 0x12, 0x13, 0, 0, 0, 0, 0x14, 0x15, 0x16, 0x17, 0, 0, 0] := by decide +kernel
theorem test_bltH : bytesAfter (exec (.bltH false) (state8 cmd22 0 8)) 0x2008 16 =
    some [0, 0x13, 0x12, 0x11, 0x10, 0, 0, 0, 0, 0x17, 0x16, 0x15, 0x14, 0, 0, 0] := by decide +kernel
theorem test_bltV : bytesAfter (exec (.bltV false) (state8 cmd22 0 8)) 0x2008 16 =
    some [0, 0x1C, 0x1D, 0x1E, 0x1F, 0, 0, 0, 0, 0x18, 0x19, 0x1A, 0x1B, 0, 0, 0] := by decide +kernel
theorem test_bltHV : bytesAfter (exec (.bltHV false) (state8 cmd22 0 8)) 0x2008 16 =
    some [0, 0x1F, 0x1E, 0x1D, 0x1C, 0, 0, 0, 0, 0x1B, 0x1A, 0x19, 0x18, 0, 0, 0] := by decide +kernel

/-- V23, framebuffer rows 2 and 3. -/
theorem test_blts : bytesAfter (exec (.blts false) (state8 cmd23 0 8)) 0x2010 16 =
    some [0x10, 0x10, 0x11, 0x11, 0x12, 0x12, 0x13, 0x13, 0x14, 0x14, 0x15, 0x15, 0x16, 0x16, 0x17, 0x17] := by
  decide +kernel
theorem test_bltsH : bytesAfter (exec (.bltsH false) (state8 cmd23 0 8)) 0x2010 16 =
    some [0x13, 0x13, 0x12, 0x12, 0x11, 0x11, 0x10, 0x10, 0x17, 0x17, 0x16, 0x16, 0x15, 0x15, 0x14, 0x14] := by
  decide +kernel
theorem test_bltsV : bytesAfter (exec (.bltsV false) (state8 cmd23 0 8)) 0x2010 16 =
    some [0x14, 0x14, 0x15, 0x15, 0x16, 0x16, 0x17, 0x17, 0x10, 0x10, 0x11, 0x11, 0x12, 0x12, 0x13, 0x13] := by
  decide +kernel
theorem test_bltsHV : bytesAfter (exec (.bltsHV false) (state8 cmd23 0 8)) 0x2010 16 =
    some [0x17, 0x17, 0x16, 0x16, 0x15, 0x15, 0x14, 0x14, 0x13, 0x13, 0x12, 0x12, 0x11, 0x11, 0x10, 0x10] := by
  decide +kernel

/-- V24: minification. -/
theorem test_blts_minify :
    bytesAfter (exec (.blts false)
      (state8 { cmd22 with dstX := 3, dstY := 2, dstW := 2, dstH := 2, scale := 0x8000 } 0 8)) 0x2010 16 =
      some [0, 0, 0, 0x10, 0x12, 0, 0, 0, 0, 0, 0, 0x18, 0x1A, 0, 0, 0] := by decide +kernel

/-- V25: the offsets wrap. -/
theorem test_blts_offsets_wrap :
    bytesAfter (exec (.blts true)
      (state8 { cmd22 with srcX := 3, srcY := 3, dstX := 2, dstY := 2, dstW := 4, dstH := 2, scale := 0x10000 } 0 8))
      0x2010 16 =
      some [0, 0, 0x1F, 0x1C, 0x1D, 0x1E, 0, 0, 0, 0, 0x13, 0x10, 0x11, 0x12, 0, 0] := by decide +kernel

/-- V28: the later row overwrites the earlier one where the rows overlap. -/
theorem test_blt_pitch_smaller_than_row :
    bytesAfter (exec (.blt false) (state8 { cmd22 with dstX := 0, dstY := 0 } 0 2)) 0x2000 10 =
      some [0x10, 0x11, 0x14, 0x15, 0x18, 0x19, 0x1C, 0x1D, 0x1E, 0x1F] := by decide +kernel

/-- V29: a mirrored 16-bit copy keeps each unit's byte order. -/
theorem test_bltH_16_keeps_byte_order :
    bytesAfter (exec (.bltH false) (state16 cmd29)) 0x2010 8 = some [0, 0, 0xA2, 0xB2, 0xA1, 0xB1, 0, 0] := by
  decide +kernel

/-- V30, row 0. -/
theorem test_bltsH_16 :
    bytesAfter (exec (.bltsH false) (state16 cmd30)) 0x2000 12 =
      some [0, 0, 0, 0, 0xA2, 0xB2, 0xA2, 0xB2, 0xA1, 0xB1, 0xA1, 0xB1] := by decide +kernel

/-- V31, row 0. -/
theorem test_bltsV_16 :
    bytesAfter (exec (.bltsV false) (state16 cmd30)) 0x2000 12 =
      some [0, 0, 0, 0, 0xA3, 0xB3, 0xA3, 0xB3, 0xA4, 0xB4, 0xA4, 0xB4] := by decide +kernel

/-! Slack: P5, with draws of the test's own in place of the free values. -/

/-- The start memory of P5. -/
def mem5 : Memory :=
  cells 0x1000 ((List.range 16).map fun k => BitVec.ofNat 8 (0x30 + k)) ++ cells 0x2000 (List.replicate 16 0#8)

/-- The command of P5, with its FLAGS. -/
def cmd5 (flags : Word) : Cmd :=
  { srcBase := 0x1000, srcW := 8, srcH := 2, srcStride := 8, srcX := 0, srcY := 0, dstX := 1, dstY := 0, dstW := 6
    dstH := 2, scale := 0, flags := flags }

/-- The framebuffer of P5 after its command, the slack of row 0 drawn as 0xEE and that of row 1 not written. -/
def p5After (flags : Word) : Option (List Byte) :=
  match blit Config.atReset (cmd5 flags) ⟨0x2000, 8, false⟩ mem5 (fun j => if j = 0 then some 0xEE#8 else none) with
  | .ok (m, _) => memRead m 0x2000 16
  | .error _ => none

/-- P5 state A: slack right of the rectangle. -/
theorem test_slack_blt : p5After 8 =
    some [0, 0x30, 0x31, 0x32, 0x33, 0x34, 0x35, 0xEE, 0, 0x38, 0x39, 0x3A, 0x3B, 0x3C, 0x3D, 0] := by decide +kernel
/-- P5 state B: slack left of the rectangle. -/
theorem test_slack_bltH : p5After 9 =
    some [0xEE, 0x35, 0x34, 0x33, 0x32, 0x31, 0x30, 0, 0, 0x3D, 0x3C, 0x3B, 0x3A, 0x39, 0x38, 0] := by decide +kernel
/-- V33: no slack without OVERWRITE_EDGES. -/
theorem test_no_slack_without_edges : p5After 0 =
    some [0, 0x30, 0x31, 0x32, 0x33, 0x34, 0x35, 0, 0, 0x38, 0x39, 0x3A, 0x3B, 0x3C, 0x3D, 0] := by decide +kernel

/-! The host interface: V35 to V41. -/

/-- V35, V36, V37. -/
theorem test_write_read_back :
    readReg .flags (writeReg .flags 0xFFFFFFFF#32 Regs.zero) = 0x0000000F#32 ∧
    readReg .ctrl (writeReg .ctrl 0xFFFFFFFE#32 Regs.zero) = 0x00000000#32 ∧
    readReg .scale (writeReg .scale 0xDEADBEEF#32 Regs.zero) = 0xDEADBEEF#32 := by decide

/-- V35 as a step: the worked example of R171. -/
theorem test_wrFlags : exec (.wrFlags 0xFFFFFFFF#32) State.reset =
    .next { State.reset with regs := ⟨{ zeroCmd with flags := 0x0000000F#32 }, 0, 0, 0⟩ } := by rfl

/-- V38. -/
theorem test_rdStart : exec .rdStart (state8 cmd22 1 8) =
    .next { state8 cmd22 1 8 with reply := .word 0x00000000#32 } := by rfl

/-- R172, R34: RD FB_BASE in the state of V22. -/
theorem test_rdFbBase : exec .rdFbBase (state8 cmd22 1 8) =
    .next { state8 cmd22 1 8 with reply := .word 0x00002000#32 } := by rfl

/-- V39. -/
theorem test_wrStartEven : exec .wrStartEven (state8 cmd22 0 8) = .next (state8 cmd22 0 8) := by rfl

/-- R173: GO with FLAGS = 3 runs BLT.HV (V22). -/
theorem test_go_selects_by_flags :
    bytesAfter (exec .go (state8 { cmd22 with flags := 3 } 0 8)) 0x2008 8 =
      some [0, 0x1F, 0x1E, 0x1D, 0x1C, 0, 0, 0] := by decide +kernel

/-! Early exits and refusals: V42 to V49. -/

/-- V42, V43, V45. -/
theorem test_scale_out_of_range_refused :
    refusalOf (exec (.blts false) (state8 { cmd23 with scale := 0 } 0 8)) = some .scaleOutOfRange ∧
    refusalOf (exec (.blts false) (state8 { cmd23 with scale := 0 } 1 8)) = some .scaleOutOfRange ∧
    refusalOf (exec (.blts false) (state8 { cmd23 with scale := 0, dstW := 0 } 0 8)) = some .scaleOutOfRange := by
  decide +kernel

/-- V44. -/
theorem test_suppressed_without_division :
    bytesAfter (exec (.blts false)
      { state8 { cmd23 with scale := 0 } 1 8 with cfg := { Config.atReset with divWhenSuppressed := false } }) 0x2008 8 =
      some [0, 0, 0, 0, 0, 0, 0, 0] := by decide +kernel

/-- V46, V47, V27, V26. -/
theorem test_no_op_exits :
    bytesAfter (exec (.blts false) (state8 { cmd23 with scale := 0x10000, dstW := 0 } 0 8)) 0x2008 4 = some [0, 0, 0, 0] ∧
    bytesAfter (exec (.blts false) (state8 { cmd23 with scale := 0x10000 } 1 8)) 0x2008 4 = some [0, 0, 0, 0] ∧
    bytesAfter (exec (.blt false) (state8 cmd22 1 8)) 0x2008 4 = some [0, 0, 0, 0] ∧
    bytesAfter (exec (.bltH false) (state8 { cmd22 with dstH := 0 } 0 8)) 0x2008 4 = some [0, 0, 0, 0] := by
  decide +kernel

/-- R182: one command outside each of LG2 to LG6. -/
theorem test_outside_legal_refused :
    refusalOf (exec (.blts false) (state8 { cmd23 with srcW := 3 } 0 8)) = some .outsideLegal ∧
    refusalOf (exec (.blt false) (state8 { cmd22 with srcX := 1 } 0 8)) = some .outsideLegal ∧
    refusalOf (exec (.blt false) (state16 { cmd29 with srcBase := 0x1001 })) = some .outsideLegal ∧
    refusalOf (exec (.blt false) { state8 cmd22 0 8 with regs := ⟨cmd22, 0x1000, 8, 0⟩ }) = some .outsideLegal ∧
    refusalOf (exec (.blt false) (state8 { cmd22 with srcBase := 0x3000 } 0 8)) = some .outsideLegal := by decide +kernel

/-! Steps. -/

/-- R203: GO straight after reset. -/
theorem test_go_after_reset : step (State.reset.withFetchWord 40 0x7C00000001) = .next State.reset := by rfl

/-- P1's first transaction. -/
theorem test_step_write_fb_base : step (State.reset.withFetchWord 40 0x7000002000) =
    .next { State.reset with regs := ⟨zeroCmd, 0x2000#32, 0, 0⟩ } := by rfl

/-- A FLAGS word runs as the operation GO selects (V22, FLAGS 1). -/
theorem test_step_flags_word :
    bytesAfter (step ((state8 cmd22 0 8).withFetchWord 32 1)) 0x2008 8 = some [0, 0x13, 0x12, 0x11, 0x10, 0, 0, 0] := by
  decide +kernel

/-- U11: a halfword access is refused. -/
theorem test_step_narrow_access :
    refusalOf (step { State.reset with host := [.access ⟨.half, 0x6C00000001#39⟩] }) = some .accessShape := by decide

/-- R202: reset leaves memory alone and clears the registers. -/
theorem test_step_reset : step { state8 cmd22 1 8 with host := [.reset] } =
    .next { State.reset with mem := mem8 } := by rfl

/-- R40: a blit in progress is finished from its position: V22's BLT from `(3, 0)`, pointers as R100 gives them, writes its last
row only. -/
theorem test_blit_in_progress_is_finished :
    bytesAfter (step { state8 cmd22 0 8 with
      run := some { startRun .w8 cmd22 ⟨0x2000, 8, false⟩ 0 with sp := 0x100C, dp := 0x2021, j := 3 } }) 0x2018 16 =
      some [0, 0, 0, 0, 0, 0, 0, 0, 0, 0x1C, 0x1D, 0x1E, 0x1F, 0, 0, 0] := by decide +kernel

/-- R103: the wide path on a row of four 16-bit units. -/
theorem test_wide_row :
    (match wideRow { startRun .w16 { cmd29 with dstW := 4, dstX := 0, dstY := 0 } ⟨0x2000, 8, false⟩ 0 with j := 0 } mem16 with
      | some m => memRead m 0x2000 10
      | none => none) =
      some [0xA1, 0xB1, 0xA2, 0xB2, 0xA3, 0xB3, 0xA4, 0xB4, 0, 0] := by decide +kernel

/-! Witnesses: for each statement with hypotheses, named after it, values that meet them together, at the boundaries its clauses
have. -/

/-- Whether an instruction completes. -/
def completes (o : Host.Outcome State Fault Refusal) : Bool :=
  match o with
  | .next _ => true
  | .refused _ => false

/-- The state an instruction leaves. -/
def stateAfter (o : Host.Outcome State Fault Refusal) : State :=
  match o with
  | .next t => t
  | .refused _ => State.reset

theorem next_of_completes {o : Host.Outcome State Fault Refusal} (h : completes o = true) : o = .next (stateAfter o) := by
  cases o with
  | next t => rfl
  | fault e => cases e
  | refused e => cases h

/-- Two pixels and the one after them. -/
def smallMem : Memory := [(0x1000, 0xA1#8), (0x1001, 0xA2#8), (0x1002, 0xA3#8)]

/-- A command of two pixels. -/
def smallCmd : Cmd :=
  { srcBase := 0x1000, srcW := 2, srcH := 1, srcStride := 2, srcX := 0, srcY := 0, dstX := 1, dstY := 0, dstW := 2
    dstH := 1, scale := 0x10000, flags := 0 }

/-- An idle engine with that command. -/
def small (c : Cmd) : State := { State.reset with regs := ⟨c, 0x2000, 8, 0⟩, mem := smallMem }

/-- An engine with a host operation at hand. -/
def withOps (ops : List HostOp) : State := { small smallCmd with host := ops }

/-- The blit of the small command in progress. -/
def smallRun : Run := startRun .w8 smallCmd ⟨0x2000, 8, false⟩ 0

/-- The unscaled operations copy the small command. -/
theorem small_runs (oe : Bool) :
    BlitRuns 0#3 oe (small smallCmd) 0 ∧ BlitRuns 1#3 oe (small smallCmd) 0 ∧ BlitRuns 2#3 oe (small smallCmd) 0 ∧
      BlitRuns 3#3 oe (small smallCmd) 0 := by
  cases oe <;>
    exact ⟨⟨⟨rfl, by decide, by decide, rfl⟩, by decide +kernel⟩, ⟨⟨rfl, by decide, by decide, rfl⟩, by decide +kernel⟩,
      ⟨⟨rfl, by decide, by decide, rfl⟩, by decide +kernel⟩, ⟨⟨rfl, by decide, by decide, rfl⟩, by decide +kernel⟩⟩

/-- The scaled operations copy it. -/
theorem small_runs_scaled (oe : Bool) :
    BlitRuns 4#3 oe (small smallCmd) 0x10000 ∧ BlitRuns 5#3 oe (small smallCmd) 0x10000 ∧
      BlitRuns 6#3 oe (small smallCmd) 0x10000 ∧ BlitRuns 7#3 oe (small smallCmd) 0x10000 := by
  cases oe <;>
    exact ⟨⟨⟨rfl, by decide, by decide, by decide⟩, by decide +kernel⟩,
      ⟨⟨rfl, by decide, by decide, by decide⟩, by decide +kernel⟩,
      ⟨⟨rfl, by decide, by decide, by decide⟩, by decide +kernel⟩,
      ⟨⟨rfl, by decide, by decide, by decide⟩, by decide +kernel⟩⟩

/-- `UnitsDistinct` as a check that runs. -/
def distinctCheck (cmd : Cmd) (ctx : Ctx) : Bool :=
  (rowsOf cmd).all fun j => (colsOf cmd).all fun i => (rowsOf cmd).all fun j' => (colsOf cmd).all fun i' =>
    dstUnitAddr .w8 cmd ctx j i != dstUnitAddr .w8 cmd ctx j' i' || (j == j' && i == i')

theorem distinct_of_check {cmd : Cmd} {ctx : Ctx} (h : distinctCheck cmd ctx = true) : UnitsDistinct .w8 cmd ctx := by
  intro j hj i hi j' hj' i' hi' e
  simp only [distinctCheck, rowsOf, colsOf, List.all_eq_true, List.mem_range] at h
  simpa [e] using h j hj i hi j' hj' i' hi'

/-- Its destination units are distinct, for every operation. -/
theorem small_distinct (key : BitVec 3) (oe : Bool) :
    UnitsDistinct .w8 (commandFor key oe (small smallCmd)) (snapshotCtx (small smallCmd).regs) := by
  refine distinct_of_check ?_
  revert key oe
  decide +kernel

/-- Its slack units are outside, for every operation. -/
theorem small_slack_outside (key : BitVec 3) (oe : Bool) :
    SlackOutside .w8 (commandFor key oe (small smallCmd)) (snapshotCtx (small smallCmd).regs) := by
  revert key oe
  unfold SlackOutside
  decide +kernel

theorem small_at_scale_one : AtScaleOne (small smallCmd) :=
  ⟨rfl, ⟨1, by decide, rfl⟩, ⟨0, by decide, rfl⟩, by decide, by decide⟩

theorem small_scale_refused (key : BitVec 3) (h : key.getLsbD 2 = true) :
    ScaleRefused key (small { smallCmd with scale := 1 }) := ⟨h, .inl rfl, .inl (by decide)⟩

theorem witness_DecodedTransactionEncodesBack :
    (decodeTW 0x7400000008#39 = .ok (.wrFbPitch 8#32) ∧ twWrite 0x7400000008#39 = true ∧
      twOffset 0x7400000008#39 ≠ 0x3C#6) ∧
    (decodeTW 0x7CFFFFFFFF#39 = .ok .go ∧ twWrite 0x7CFFFFFFFF#39 = true ∧ twOffset 0x7CFFFFFFFF#39 = 0x3C#6) := by decide

theorem witness_StepRunsDecodedAccess :
    (withOps [.access ⟨.word, 0x7000002000#39⟩]).run = none ∧ Access.wellFormed ⟨.word, 0x7000002000#39⟩ = true ∧
      decodeTW 0x7000002000#39 = .ok (.wrFbBase 0x2000#32) := by decide

theorem witness_OnlyAlignedWordAccessesRun :
    (withOps [.access ⟨.half, 0x6C00000001#39⟩]).run = none ∧ (AccessWidth.half ≠ .word) ∧
      (Access.offset ⟨.word, 0x6D00000001#39⟩).toNat % 4 ≠ 0 ∧ (Access.offset ⟨.word, 0x7C00000001#39⟩).toNat % 4 = 0 := by
  decide

theorem witness_IdleEngineStays : State.reset.run = none ∧ State.reset.host = [] := by decide

theorem witness_HostIsHeldDuringBlit :
    ∃ t, step { withOps [.reset] with run := some smallRun } = .next t :=
  ⟨_, next_of_completes (by decide +kernel)⟩

theorem witness_EngineIsIdleAfterEveryStep : step State.reset = .next State.reset := by rfl

theorem witness_ResetKeepsMemory : (withOps [.reset]).run = none ∧ (withOps [.reset]).host = .reset :: [] := by decide

theorem witness_WriteStoresItsRegister : RegName.flags ≠ .start ∧ RegName.srcBase ≠ .flags := by decide

theorem witness_EvenStartWriteHasNoEffect : (0xFFFFFFFE#32 : Word).getLsbD 0 = false := by decide

theorem witness_RegisterWritesCommute :
    RegName.srcBase ≠ .fbPitch ∧ RegName.srcBase ≠ .start ∧ RegName.fbPitch ≠ .start := by decide

theorem witness_GoRunsBlitOnSnapshots :
    (blit Config.atReset (snapshotCmd (small smallCmd).regs) (snapshotCtx (small smallCmd).regs) smallMem
      (slackDraws (small smallCmd))).toOption.isSome = true ∧
    (blit Config.atReset (snapshotCmd (small { smallCmd with srcX := 1 }).regs) (snapshotCtx (small smallCmd).regs) smallMem
      (slackDraws (small smallCmd))).toOption.isSome = false := by decide +kernel

theorem witness_GoCompletes :
    BlitRuns (flagsKey (readReg .flags (small smallCmd).regs)) (flagsOE (readReg .flags (small smallCmd).regs))
      (small smallCmd) 0 := (small_runs false).1

/-- Unscaled; scaled at the least SCALE; scaled at SCALE 0 with DIV_WHEN_SUPPRESSED false. -/
theorem witness_SuppressedBlitChangesNothing :
    (snapshotCtx (state8 smallCmd 1 8).regs).suppressDraw = true ∧ ¬ ScaleRefused 0#3 (state8 smallCmd 1 8) ∧
    ¬ ScaleRefused 4#3 (state8 { smallCmd with scale := 2 } 1 8) ∧
    ¬ ScaleRefused 4#3 { state8 { smallCmd with scale := 0 } 1 8 with
        cfg := { Config.atReset with divWhenSuppressed := false } } := by
  unfold ScaleRefused
  decide +kernel

theorem witness_ZeroAreaBlitChangesNothing :
    ((small { smallCmd with dstW := 0 }).regs.cmd.dstW = 0#32 ∧ ¬ ScaleRefused 7#3 (small { smallCmd with dstW := 0 })) ∧
    ((small { smallCmd with dstH := 0 }).regs.cmd.dstH = 0#32 ∧ ¬ ScaleRefused 7#3 (small { smallCmd with dstH := 0 })) := by
  unfold ScaleRefused
  decide +kernel

/-- SCALE = 1 and SCALE = 2^31, drawing, and SCALE = 0 suppressed. -/
theorem witness_ScaleOutOfRangeIsRefused :
    ScaleRefused 4#3 (small { smallCmd with scale := 1 }) ∧ ScaleRefused 7#3 (small { smallCmd with scale := 0x80000000 }) ∧
    ScaleRefused 5#3 (state8 { smallCmd with scale := 0 } 1 8) := by
  unfold ScaleRefused
  decide +kernel

/-- A command for each clause: a width of 3, a region one column too wide, an odd source base and an odd framebuffer base with
W = 16, a byte read and written, a byte read that holds no value, a destination in the register window. -/
theorem witness_CommandOutsideLegalIsRefused :
    (ReachesCopy 4#3 false (small { smallCmd with srcW := 3 }) 0x10000 ∧ ∀ k < 32, (3#32).toNat ≠ 2 ^ k) ∧
    (ReachesCopy 0#3 false (small { smallCmd with srcX := 1 }) 0 ∧ (2#32).toNat < (1#32).toNat + (2#32).toNat) ∧
    (ReachesCopy 0#3 false (state16 { smallCmd with srcBase := 0x1001 }) 0 ∧ (0x1001#32).toNat % unitSize .w16 ≠ 0) ∧
    (ReachesCopy 0#3 false { state16 smallCmd with regs := ⟨smallCmd, 0x2001, 8, 0⟩ } 0 ∧
      (0x2001#32).toNat % unitSize .w16 ≠ 0) ∧
    (ReachesCopy 0#3 false { small smallCmd with regs := ⟨smallCmd, 0x1000, 8, 0⟩ } 0 ∧
      0x1001#32 ∈ readSet .w8 (commandFor 0#3 false (small smallCmd)) 0 ∧
      0x1001#32 ∈ writeSet .w8 (commandFor 0#3 false (small smallCmd)) ⟨0x1000, 8, false⟩) ∧
    (ReachesCopy 0#3 false (small { smallCmd with srcBase := 0x1002 }) 0 ∧ readByte smallMem 0x1003 = none ∧
      0x1003#32 ∈ readSet .w8 (commandFor 0#3 false (small { smallCmd with srcBase := 0x1002 })) 0) ∧
    (ReachesCopy 0#3 false { small smallCmd with regs := ⟨smallCmd, 0xFFFFFFC0, 8, 0⟩ } 0 ∧
      platformWrites Config.atReset 0xFFFFFFC1#32 = false ∧
      0xFFFFFFC1#32 ∈ writeSet .w8 (commandFor 0#3 false (small smallCmd)) ⟨0xFFFFFFC0, 8, false⟩) :=
  ⟨⟨⟨rfl, by decide, by decide, by decide⟩, by decide⟩, ⟨⟨rfl, by decide, by decide, rfl⟩, by decide⟩,
    ⟨⟨rfl, by decide, by decide, rfl⟩, by decide⟩, ⟨⟨rfl, by decide, by decide, rfl⟩, by decide⟩,
    ⟨⟨rfl, by decide, by decide, rfl⟩, by decide +kernel, by decide +kernel⟩,
    ⟨⟨rfl, by decide, by decide, rfl⟩, by decide +kernel, by decide +kernel⟩,
    ⟨⟨rfl, by decide, by decide, rfl⟩, by decide +kernel, by decide +kernel⟩⟩

theorem witness_LegalBlitCompletes : BlitRuns 7#3 true (small smallCmd) 0x10000 := (small_runs_scaled true).2.2.2

theorem witness_BltCopiesRectangle (oe : Bool) :
    BlitRuns 0#3 oe (small smallCmd) 0 ∧
      UnitsDistinct .w8 (commandFor 0#3 oe (small smallCmd)) (snapshotCtx (small smallCmd).regs) ∧
      SlackOutside .w8 (commandFor 0#3 oe (small smallCmd)) (snapshotCtx (small smallCmd).regs) :=
  ⟨(small_runs oe).1, small_distinct _ _, small_slack_outside _ _⟩

theorem witness_BltHMirrorsColumns (oe : Bool) :
    (BlitRuns 1#3 oe (small smallCmd) 0 ∧
      UnitsDistinct .w8 (commandFor 1#3 oe (small smallCmd)) (snapshotCtx (small smallCmd).regs) ∧
      SlackOutside .w8 (commandFor 1#3 oe (small smallCmd)) (snapshotCtx (small smallCmd).regs)) ∧
    (slackPermitted .w8 (commandFor 1#3 false (small { smallCmd with dstW := 1 })) = false ∧
      (small { smallCmd with dstW := 1 }).regs.cmd.dstW = 1#32) :=
  ⟨⟨(small_runs oe).2.1, small_distinct _ _, small_slack_outside _ _⟩, rfl, rfl⟩

theorem witness_BltVFlipsRows (oe : Bool) :
    BlitRuns 2#3 oe (small smallCmd) 0 ∧
      UnitsDistinct .w8 (commandFor 2#3 oe (small smallCmd)) (snapshotCtx (small smallCmd).regs) ∧
      SlackOutside .w8 (commandFor 2#3 oe (small smallCmd)) (snapshotCtx (small smallCmd).regs) ∧
      (small smallCmd).regs.cmd.dstH = 1#32 :=
  ⟨(small_runs oe).2.2.1, small_distinct _ _, small_slack_outside _ _, rfl⟩

theorem witness_BltHVTurnsRectangle (oe : Bool) :
    BlitRuns 3#3 oe (small smallCmd) 0 ∧
      UnitsDistinct .w8 (commandFor 3#3 oe (small smallCmd)) (snapshotCtx (small smallCmd).regs) ∧
      SlackOutside .w8 (commandFor 3#3 oe (small smallCmd)) (snapshotCtx (small smallCmd).regs) :=
  ⟨(small_runs oe).2.2.2, small_distinct _ _, small_slack_outside _ _⟩

theorem witness_BltsSamplesRectangle (oe : Bool) :
    (BlitRuns 4#3 oe (small smallCmd) 0x10000 ∧
      UnitsDistinct .w8 (commandFor 4#3 oe (small smallCmd)) (snapshotCtx (small smallCmd).regs)) ∧
    ScaleRefused 4#3 (small { smallCmd with scale := 1 }) ∧ AtScaleOne (small smallCmd) :=
  ⟨⟨(small_runs_scaled oe).1, small_distinct _ _⟩, small_scale_refused _ rfl, small_at_scale_one⟩

theorem witness_BltsHSamplesMirrored (oe : Bool) :
    (BlitRuns 5#3 oe (small smallCmd) 0x10000 ∧
      UnitsDistinct .w8 (commandFor 5#3 oe (small smallCmd)) (snapshotCtx (small smallCmd).regs)) ∧
    ScaleRefused 5#3 (small { smallCmd with scale := 1 }) ∧ AtScaleOne (small smallCmd) :=
  ⟨⟨(small_runs_scaled oe).2.1, small_distinct _ _⟩, small_scale_refused _ rfl, small_at_scale_one⟩

theorem witness_BltsVSamplesFlipped (oe : Bool) :
    (BlitRuns 6#3 oe (small smallCmd) 0x10000 ∧
      UnitsDistinct .w8 (commandFor 6#3 oe (small smallCmd)) (snapshotCtx (small smallCmd).regs)) ∧
    ScaleRefused 6#3 (small { smallCmd with scale := 1 }) ∧ AtScaleOne (small smallCmd) :=
  ⟨⟨(small_runs_scaled oe).2.2.1, small_distinct _ _⟩, small_scale_refused _ rfl, small_at_scale_one⟩

theorem witness_BltsHVSamplesTurned (oe : Bool) :
    (BlitRuns 7#3 oe (small smallCmd) 0x10000 ∧
      UnitsDistinct .w8 (commandFor 7#3 oe (small smallCmd)) (snapshotCtx (small smallCmd).regs)) ∧
    ScaleRefused 7#3 (small { smallCmd with scale := 1 }) ∧ AtScaleOne (small smallCmd) :=
  ⟨⟨(small_runs_scaled oe).2.2.2, small_distinct _ _⟩, small_scale_refused _ rfl, small_at_scale_one⟩

/-- Two rows of two pixels in a framebuffer of pitch 1, with the pixels and the slack reads they need. Unit `(1, 0)` lies on unit
`(0, 1)`, and the slack of row 0 lies on unit `(1, 1)`. -/
def colliding : State :=
  { State.reset with
    regs := ⟨{ smallCmd with srcH := 2, dstH := 2 }, 0x2000, 1, 0⟩
    mem := cells 0x1000 [0xA1#8, 0xA2#8, 0xA3#8, 0xA4#8, 0xA5#8] }

/-- The later of two colliding units, and a unit that an earlier row's slack falls on, meet the premises; slack is permitted. -/
theorem witness_ClosedForm_collisions :
    let cmd := commandFor 0#3 true colliding
    let ctx := snapshotCtx colliding.regs
    BlitRuns 0#3 true colliding 0 ∧ slackPermitted .w8 cmd = true ∧
    dstUnitAddr .w8 cmd ctx 1 0 = dstUnitAddr .w8 cmd ctx 0 1 ∧ slackAddr .w8 cmd ctx 0 = dstUnitAddr .w8 cmd ctx 1 1 ∧
    (∀ i < 2, (∀ j' < 2, ∀ i' < 2, (1 < j' ∨ 1 = j' ∧ i < i') → dstUnitAddr .w8 cmd ctx j' i' ≠ dstUnitAddr .w8 cmd ctx 1 i) ∧
      ∀ j' < 2, 1 ≤ j' → slackAddr .w8 cmd ctx j' ≠ dstUnitAddr .w8 cmd ctx 1 i) :=
  ⟨⟨⟨rfl, by decide, by decide, rfl⟩, by decide +kernel⟩, by decide +kernel, by decide +kernel, by decide +kernel, by
    intro i hi
    obtain rfl | rfl : i = 0 ∨ i = 1 := by omega
    · exact ⟨by decide +kernel, by decide +kernel⟩
    · exact ⟨by decide +kernel, by decide +kernel⟩⟩

/-- A blit that copies; its last unit is written by no later transfer, and 0x2000 lies outside. -/
theorem witness_ClosedForm :
    BlitRuns 0#3 false (small smallCmd) 0 ∧
    (∀ j' < 1, ∀ i' < 2, (0 < j' ∨ 0 = j' ∧ 1 < i') →
      dstUnitAddr .w8 (commandFor 0#3 false (small smallCmd)) ⟨0x2000, 8, false⟩ j' i' ≠
        dstUnitAddr .w8 (commandFor 0#3 false (small smallCmd)) ⟨0x2000, 8, false⟩ 0 1) ∧
    0x2000#32 ∉ nominalBytes .w8 (commandFor 0#3 false (small smallCmd)) ⟨0x2000, 8, false⟩ :=
  ⟨(small_runs false).1, by decide +kernel, by decide +kernel⟩

/-- A blit that draws slack for its row, and one that is permitted none. -/
theorem witness_SlackIsLeftAloneOrDrawn :
    (blit Config.atReset { smallCmd with flags := 8 } ⟨0x2000, 8, false⟩ smallMem (fun _ => some 0xEE#8)).toOption.isSome = true ∧
    slackPermitted .w8 { smallCmd with flags := 8 } = true ∧
    slackAddr .w8 { smallCmd with flags := 8 } ⟨0x2000, 8, false⟩ 0 ∉
      nominalBytes .w8 { smallCmd with flags := 8 } ⟨0x2000, 8, false⟩ ∧
    (blit Config.atReset smallCmd ⟨0x2000, 8, false⟩ smallMem (fun _ => some 0xEE#8)).toOption.isSome = true ∧
    flagsOE smallCmd.flags = false ∧ smallCmd.dstW ≠ 0#32 := by decide +kernel

theorem witness_PackedGatesOpenOnlyWithSlack :
    packedStraightGate .w8 (startRun .w8 { smallCmd with flags := 8, dstW := 5 } ⟨0x2000, 8, false⟩ 0) = true ∧
    packedMirroredGate .w8 1 (startRun .w8 { smallCmd with flags := 9, dstW := 4 } ⟨0x2000, 8, false⟩ 0) = true ∧
    scaled 8#32 = false ∧ scaled 9#32 = false := by decide +kernel

theorem witness_SourceIsUnchanged :
    BlitRuns 0#3 false (small smallCmd) 0 ∧ (∃ t, exec (blitInstr 0#3 false) (small smallCmd) = .next t) ∧
      0x1000#32 ∈ readSet .w8 (commandFor 0#3 false (small smallCmd)) 0 :=
  ⟨(small_runs false).1, ⟨_, next_of_completes (by decide +kernel)⟩, by decide +kernel⟩

/-- Two memories that agree on the source and differ elsewhere. -/
theorem witness_EqualSourcesGiveEqualPixels :
    stepOf smallCmd = some 0 ∧
    ((readSet .w8 smallCmd 0).all fun a => readByte smallMem a == readByte (smallMem ++ [(0x2003, 0xB1#8)]) a) = true ∧
    (blit Config.atReset smallCmd ⟨0x2000, 8, false⟩ smallMem (fun _ => none)).toOption.isSome = true ∧
    (blit Config.atReset smallCmd ⟨0x2000, 8, false⟩ (smallMem ++ [(0x2003, 0xB1#8)]) (fun _ => none)).toOption.isSome = true := by
  decide +kernel

theorem witness_UnscaledBlitIgnoresScale : (3#3).getLsbD 2 = false := by decide

theorem witness_ScaledBlitIgnoresOverwriteEdges : (4#3).getLsbD 2 = true := by decide

/-- The widest and highest bitmap R132 admits, and the region that fills it. -/
theorem witness_ScaleIdentity :
    (0#3).getLsbD 2 = false ∧
    AtScaleOne (small { smallCmd with srcW := 0x10000, srcH := 0x10000, dstW := 0x10000, dstH := 0x10000 }) :=
  ⟨rfl, rfl, ⟨16, by decide, rfl⟩, ⟨16, by decide, rfl⟩, by decide, by decide⟩

/-- The state after the small command was mirrored, with the command that reads it back. -/
def mirroredBack : State :=
  { stateAfter (exec (.bltH false) (small smallCmd)) with
    regs := ⟨{ smallCmd with srcBase := 0x2000, srcStride := 8, srcX := 1, srcW := 4 }, 0x3000, 8, 0⟩ }

theorem witness_MirrorRoundTrip :
    (BlitRuns 1#3 false (small smallCmd) 0 ∧
      UnitsDistinct .w8 (commandFor 1#3 false (small smallCmd)) (snapshotCtx (small smallCmd).regs) ∧
      exec (.bltH false) (small smallCmd) = .next (stateAfter (exec (.bltH false) (small smallCmd)))) ∧
    mirroredBack.mem = (stateAfter (exec (.bltH false) (small smallCmd))).mem ∧ mirroredBack.cfg = (small smallCmd).cfg ∧
    BlitRuns 1#3 false mirroredBack 0 ∧
    UnitsDistinct .w8 (commandFor 1#3 false mirroredBack) (snapshotCtx mirroredBack.regs) :=
  ⟨⟨(small_runs false).2.1, small_distinct _ _, next_of_completes (by decide +kernel)⟩, rfl, by decide +kernel,
    ⟨⟨rfl, by decide, by decide, rfl⟩, by decide +kernel⟩, distinct_of_check (by decide +kernel)⟩

theorem witness_RegistersChangeOnlyByWritesAndReset :
    (∃ t, step (withOps [.access ⟨.word, 0x7000003000#39⟩]) = .next t ∧ t.regs ≠ (withOps []).regs) ∧
    (∃ t, step (withOps [.reset]) = .next t ∧ t.regs ≠ (withOps []).regs) :=
  ⟨⟨_, next_of_completes (by decide +kernel), by decide +kernel⟩, ⟨_, next_of_completes (by decide +kernel), by decide +kernel⟩⟩

theorem witness_MemoryChangesOnlyByBlitsAndHostStores :
    (∃ t, step (withOps [.access ⟨.word, 0x7C00000001#39⟩]) = .next t ∧ t.mem ≠ (withOps []).mem) ∧
    (∃ t, step (withOps [.storeByte 0x2000 1]) = .next t ∧ t.mem ≠ (withOps []).mem) :=
  ⟨⟨_, next_of_completes (by decide +kernel), by decide +kernel⟩, ⟨_, next_of_completes (by decide +kernel), by decide +kernel⟩⟩

theorem witness_ParametersNeverChange : ∃ t, step (withOps [.reset]) = .next t :=
  ⟨_, next_of_completes (by decide +kernel)⟩

/-- A blit in progress that meets the invariant, and that its step finishes. -/
theorem witness_StepKeepsInvariant_in_progress :
    { withOps [] with run := some smallRun }.Inv ∧ ∃ t, step { withOps [] with run := some smallRun } = .next t :=
  ⟨by decide +kernel, _, next_of_completes (by decide +kernel)⟩

theorem witness_StepKeepsInvariant :
    (withOps [.access ⟨.word, 0x7C00000001#39⟩]).Inv ∧ ∃ t, step (withOps [.access ⟨.word, 0x7C00000001#39⟩]) = .next t :=
  ⟨by decide +kernel, _, next_of_completes (by decide +kernel)⟩

theorem witness_HostStoreIsSeenByHostLoad :
    (withOps [.storeByte 0x2000 1, .loadByte 0x2000]).run = none ∧ platformWrites Config.atReset 0x2000 = true ∧
      platformReads Config.atReset 0x2000 = true := by decide +kernel

/-- R41: a position is 32 bits wide and names any column a 32-bit width has, the last one of the widest row among them. -/
theorem test_position_of_widest_row :
    ({ smallRun with cmd := { smallCmd with dstW := 0xFFFFFFFF#32 }, i := 0xFFFFFFFE#32 } : Run).inRange = true ∧
    ({ smallRun with i := 2 } : Run).inRange = false := by decide +kernel

/-- In range: from the first column to the second; from the last column of a row of two rows; from the last of all. -/
theorem witness_SequencerPositionAdvances :
    smallRun.inRange = true ∧
    (tick .straightCopy .w8 (fun _ => none) smallRun smallMem).isSome = true ∧ smallRun.i.toNat + 1 < smallRun.cmd.dstW.toNat ∧
    (tick .straightCopy .w8 (fun _ => none) { smallRun with cmd := { smallCmd with dstH := 2 }, i := 1 } smallMem).isSome = true ∧
    (tick .straightCopy .w8 (fun _ => none) { smallRun with i := 1 } smallMem).isSome = true := by decide +kernel

theorem witness_SequencerRefinesKernel : smallCmd.dstW ≠ 0#32 ∧ smallCmd.dstH ≠ 0#32 := by decide

/-- A row of four 16-bit units. -/
theorem witness_WidePathMatchesReference :
    wideGate .w16 (startRun .w16 { smallCmd with dstW := 4, dstX := 0 } ⟨0x2000, 8, false⟩ 0) = true ∧
    (∀ n < 8, ∀ n' < 8, (0x1000#32 + BitVec.ofNat 32 n : Word) ≠ 0x2000#32 + BitVec.ofNat 32 n') := by decide +kernel

theorem witness_MirroredWriteKeepsUnit : [0xA1#8, 0xB1#8].length = unitSize .w16 ∧ [0xA1#8].length = unitSize .w8 := by decide

theorem witness_UnitAddressesAreAligned : legalAlignment .w16 smallCmd ⟨0x2000, 8, false⟩ = true := by decide

/-- The least and the greatest SCALE in range, and their neighbours out of it. -/
theorem witness_RecipStepIsFloor :
    (2 ≤ (2#32).toNat ∧ (2#32).toNat < 2 ^ 31) ∧ (2 ≤ (0x7FFFFFFF#32).toNat ∧ (0x7FFFFFFF#32).toNat < 2 ^ 31) ∧
      (1#32).toNat < 2 ∧ 2 ^ 31 ≤ (0x80000000#32).toNat := by decide

theorem witness_AccumulatorsGiveCoordinates :
    ∃ v : Nat → Word, v 0 = smallCmd.srcY <<< 16 ∧ ∀ j, v (j + 1) = v j + 0x10000#32 :=
  ⟨fun j => Nat.rec (smallCmd.srcY <<< 16) (fun _ x => x + 0x10000#32) j, rfl, fun _ => rfl⟩

/-- The least and the greatest power of two. -/
theorem witness_WrapMaskIsRemainder : (1#32).toNat = 2 ^ 0 ∧ (0x80000000#32).toNat = 2 ^ 31 := by decide

end Sys2Proof.Tests
end

section
/-! PROOFS. The scope of the model (00_scope.md): the idle engine takes no step of its own, no step changes a parameter, and a blit in
`Legal` that draws completes. -/

namespace Sys2Proof.Machine

/-! The idle engine (R12). -/

/-- With no blit in progress a step is the idle engine's. -/
theorem step_of_run_none {s : State} (h : s.run = none) : step s = stepIdle s := by
  unfold step
  rw [h]

/-- With nothing for the host to do the idle engine stays as it is. -/
theorem stepIdle_of_host_nil {s : State} (h : s.host = []) : stepIdle s = .next s := by
  unfold stepIdle
  rw [h]

/-- Settles O8: the step is the idle engine's, which finds no host operation. -/
theorem idleEngineStays : Obligations.IdleEngineStays := by
  unfold Obligations.IdleEngineStays
  intro s hr hh
  rw [step_of_run_none hr, stepIdle_of_host_nil hh]

/-! The parameters (R7). -/

/-- An access that runs keeps the parameters: each of its next states is an update of another field. -/
theorem exec_access_cfg {t : TW} {i : Instr} {s s' : State} (hd : decodeTW t = .ok i) (h : exec i s = .next s') :
    s'.cfg = s.cfg := by
  obtain ⟨r, v, -, -, rfl⟩ | ⟨a, rfl⟩ | rfl | ⟨-, used, -, hs'⟩ := exec_access_next hd h
  · exact withRegs_cfg s _
  · exact withReply_cfg s a
  · rfl
  · rw [hs']

/-- Finishing a blit in progress keeps the parameters. -/
theorem resumeBlit_cfg {r : Run} {s s' : State} (h : resumeBlit r s = .next s') : s'.cfg = s.cfg := by
  rw [(resumeBlit_next h).1, finishBlit_cfg]

/-- Settles O46, by what a step can do (`step_next`): no case touches the parameters. -/
theorem parametersNeverChange : Obligations.ParametersNeverChange := by
  unfold Obligations.ParametersNeverChange
  intro s t h
  obtain ⟨r, -, hr⟩ | ⟨-, hidle⟩ := step_next h
  · exact resumeBlit_cfg hr
  obtain ⟨-, rfl⟩ | ⟨a, rest, i, -, -, hd, hi⟩ | ⟨a, b, rest, -, -, rfl⟩ | ⟨a, b, rest, -, -, rfl⟩ | ⟨rest, -, rfl⟩ := hidle
  · rfl
  · rw [exec_access_cfg hd hi, withHost_cfg]
  · rw [withMem_cfg, withHost_cfg]
  · rw [withReply_cfg, withHost_cfg]
  · rw [resetEngine_cfg, withHost_cfg]

/-! Completion (R11, R156). -/

/-- A blit operation that copies answers the state with the memory its transfers leave and its slack draws counted (R143 step 5,
R153). -/
theorem runBlit_of_blitRuns {key : BitVec 3} {oe : Bool} {s : State} {step : Word} (h : BlitRuns key oe s step) :
    ∃ m, runBlit key oe s =
        .next { s with mem := m, draws := s.draws + slackRows s.cfg.width (commandFor key oe s) } ∧
      (transfersOf s.cfg.width (commandFor key oe s) (snapshotCtx s.regs) step (slackDraws s)
        (commandFor key oe s).dstH.toNat).foldlM (applyTransfer s.cfg.width) s.mem = some m := by
  obtain ⟨m, hb, hm⟩ := blit_copies (cmd := commandFor key oe s) h.drawing h.width h.height h.dividing h.vouched (slackDraws s)
  refine ⟨m, ?_, hm⟩
  unfold runBlit
  rw [hb]

/-- A blit operation that copies completes, and nothing but memory and the draws used differs (R39). -/
theorem runBlit_completes {key : BitVec 3} {oe : Bool} {s : State} {step : Word} (h : BlitRuns key oe s step) :
    ∃ t, runBlit key oe s = .next t ∧ OnlyMemoryChanged s t (slackRows s.cfg.width (commandFor key oe s)) := by
  obtain ⟨m, hr, -⟩ := runBlit_of_blitRuns h
  exact ⟨_, hr, rfl⟩

/-- Settles O26: a blit instruction runs `Blit` with its own key, which completes on a command in `Legal`. -/
theorem legalBlitCompletes : Obligations.LegalBlitCompletes := by
  unfold Obligations.LegalBlitCompletes
  intro key oe s step h
  rw [exec_blitInstr]
  exact runBlit_completes h

/-- Settles O21: GO runs the operation FLAGS selects, and that operation's command is START's snapshot. -/
theorem goCompletes : Obligations.GoCompletes := by
  unfold Obligations.GoCompletes
  intro s step h
  rw [exec_go, ← commandFor_flags]
  exact runBlit_completes h

end Sys2Proof.Machine
end

section
/-! PROOFS. The state (10_state.md): the sequencer's position and its agreement with the kernel's loops (R40), the idle engine after
every step, what changes a register (R39), SCALE under an unscaled blit (R32), and the reset state (R46). -/

namespace Sys2Proof.Machine

/-! One unit transfer and the position after it (R40). -/

theorem add_one_eq_ofNat (x : Word) : x + 1#32 = BitVec.ofNat 32 (x.toNat + 1) := by
  rw [ofNat_succ x.toNat, BitVec.ofNat_toNat, BitVec.setWidth_eq]

/-- A counter below a 32-bit bound does not wrap. -/
theorem toNat_ofNat_of_lt {n : Nat} {b : Word} (h : n < b.toNat) : (BitVec.ofNat 32 n).toNat = n :=
  Nat.mod_eq_of_lt (h.trans b.isLt)

/-- The position at the start of processed row `j` of a blit of `height` rows: its first column, or idle where there is no such
row. -/
def rowStart (height j : Nat) (r : Run) : Option Run :=
  if j < height then some { r with j := BitVec.ofNat 32 j, i := 0 } else none

theorem rowStart_of_lt {height j : Nat} (h : j < height) (r : Run) :
    rowStart height j r = some { r with j := BitVec.ofNat 32 j, i := 0 } := if_pos h

theorem rowStart_of_le {height j : Nat} (h : height ≤ j) (r : Run) : rowStart height j r = none := if_neg h.not_gt

section
variable {k : Kernel} {w : PixelWidth} {draws : Nat → Option Byte} {r : Run}

/-- Before the last column a unit transfer moves to the next column. -/
theorem tick_inner_column (h : r.i.toNat + 1 < r.cmd.dstW.toNat) (m : Memory) :
    tick k w draws r m =
      (kernelUnit k w r m).map fun q => (some { q.1 with i := BitVec.ofNat 32 (r.i.toNat + 1) }, q.2) := by
  unfold tick
  rw [← add_one_eq_ofNat]
  cases kernelUnit k w r m with
  | none => rfl
  | some q => exact if_pos h

/-- At the last column a unit transfer makes the end of the row and moves to the start of the next one. -/
theorem tick_last_column (h : r.cmd.dstW.toNat ≤ r.i.toNat + 1) (m : Memory) :
    tick k w draws r m =
      ((kernelUnit k w r m).map fun q => kernelRowEnd k w draws q.1 q.2).map fun e =>
        (rowStart r.cmd.dstH.toNat (r.j.toNat + 1) e.1, e.2) := by
  unfold tick rowStart
  rw [← add_one_eq_ofNat]
  cases kernelUnit k w r m with
  | none => rfl
  | some q =>
    simp only [Nat.not_lt.2 h, ↓reduceIte, Option.map_some]
    split <;> rfl

/-- What a unit transfer that completes does to the position: the next column, the next row, or idle. -/
theorem tick_position {r' : Option Run} {m m' : Memory} (h : tick k w draws r m = some (r', m')) :
    (r.i.toNat + 1 < r.cmd.dstW.toNat ∧ ∃ q, r' = some q ∧ q.cmd = r.cmd ∧ q.j = r.j ∧ q.i.toNat = r.i.toNat + 1) ∨
    (r.cmd.dstW.toNat ≤ r.i.toNat + 1 ∧ r.j.toNat + 1 < r.cmd.dstH.toNat ∧
      ∃ q, r' = some q ∧ q.cmd = r.cmd ∧ q.j.toNat = r.j.toNat + 1 ∧ q.i = 0) ∨
    (r.cmd.dstW.toNat ≤ r.i.toNat + 1 ∧ r.cmd.dstH.toNat ≤ r.j.toNat + 1 ∧ r' = none) := by
  rcases Nat.lt_or_ge (r.i.toNat + 1) r.cmd.dstW.toNat with hi | hi
  · rw [tick_inner_column hi] at h
    obtain ⟨⟨r1, m1⟩, hu, he⟩ := Option.map_eq_some_iff.1 h
    obtain ⟨hc, hj, -⟩ := kernelUnit_fields hu
    cases he
    exact .inl ⟨hi, _, rfl, hc, hj, toNat_ofNat_of_lt hi⟩
  · rw [tick_last_column hi, Option.map_map] at h
    obtain ⟨⟨r1, m1⟩, hu, he⟩ := Option.map_eq_some_iff.1 h
    obtain ⟨hc, -, -⟩ := kernelUnit_fields hu
    cases he
    rcases Nat.lt_or_ge (r.j.toNat + 1) r.cmd.dstH.toNat with hj | hj
    · exact .inr (.inl ⟨hi, hj, _, rowStart_of_lt hj _, (kernelRowEnd_cmd k w draws r1 m1).trans hc, toNat_ofNat_of_lt hj,
        rfl⟩)
    · exact .inr (.inr ⟨hi, hj, rowStart_of_le hj _⟩)

end

theorem inRange_iff {r : Run} :
    r.inRange = true ↔ r.j.toNat < r.cmd.dstH.toNat ∧ r.i.toNat < r.cmd.dstW.toNat := by
  simp [Run.inRange]

/-- Settles O50, by the three cases of `tick_position`. A position in range has a positive width, so column 0 of a further row is
in range. -/
theorem sequencerPositionAdvances : Obligations.SequencerPositionAdvances := by
  unfold Obligations.SequencerPositionAdvances
  intro k w draws r m m' r' h
  obtain ⟨hi, q, rfl, hc, hqj, hqi⟩ | ⟨hi, hj, q, rfl, hc, hqj, hqi⟩ | ⟨hi, hj, rfl⟩ := tick_position h
  · refine ⟨fun _ => ⟨q, rfl, hqj, hqi⟩, fun hi' => absurd hi hi'.not_gt, fun hi' => absurd hi hi'.not_gt, fun hr => ?_⟩
    obtain ⟨hrj, -⟩ := inRange_iff.1 hr
    exact inRange_iff.2 ⟨by rwa [hc, hqj], by rwa [hc, hqi]⟩
  · refine ⟨fun hi' => absurd hi' hi.not_gt, fun _ _ => ⟨q, rfl, hqj, hqi⟩, fun _ hj' => absurd hj hj'.not_gt, fun hr => ?_⟩
    obtain ⟨-, hri⟩ := inRange_iff.1 hr
    exact inRange_iff.2 ⟨by rwa [hc, hqj], by rw [hc, hqi]; exact Nat.zero_lt_of_lt hri⟩
  · exact ⟨fun hi' => absurd hi' hi.not_gt, fun _ hj' => absurd hj' hj.not_gt, fun _ _ => rfl, fun _ => rfl⟩

/-! Several unit transfers. -/

section
variable (k : Kernel) (w : PixelWidth) (draws : Nat → Option Byte)

theorem ticks_idle (n : Nat) (m : Memory) : ticks k w draws n none m = some (none, m) := by
  cases n <;> rfl

theorem ticks_succ (n : Nat) (r : Run) (m : Memory) :
    ticks k w draws (n + 1) (some r) m = (tick k w draws r m).bind fun q => ticks k w draws n q.1 q.2 := by
  conv_lhs => unfold ticks
  cases tick k w draws r m <;> rfl

theorem ticks_one (r : Run) (m : Memory) : ticks k w draws 1 (some r) m = tick k w draws r m :=
  (ticks_succ k w draws 0 r m).trans (Option.bind_fun_some _)

/-- Unit transfers one batch after another. -/
theorem ticks_add (a b : Nat) (p : Option Run) (m : Memory) :
    ticks k w draws (a + b) p m = (ticks k w draws a p m).bind fun q => ticks k w draws b q.1 q.2 := by
  induction a generalizing p m with
  | zero => rw [Nat.zero_add]; rfl
  | succ a ih =>
    cases p with
    | none => simp only [ticks_idle, Option.bind_some]
    | some r => simp only [Nat.succ_add, ticks_succ, Option.bind_assoc, ih]

end

/-! The loops of a kernel, one iteration more, and what they leave alone. -/

/-- A property that every step of a fold keeps holds of what the fold answers. -/
theorem foldlM_keeps {α β : Type} {f : β → α → Option β} (P : β → Prop) (hf : ∀ b x b', P b → f b x = some b' → P b')
    {l : List α} {b b' : β} (hb : P b) (h : l.foldlM f b = some b') : P b' := by
  induction l generalizing b with
  | nil => cases h; exact hb
  | cons x l ih =>
    obtain ⟨b1, h1, h2⟩ := Option.bind_eq_some_iff.1 h
    exact ih (hf b x b1 hb h1) h2

section
variable (unit : Run → Memory → Option (Run × Memory)) (rowEnd : Run → Memory → Run × Memory) (width n : Nat)
  (p : Run × Memory)

theorem columnLoop_succ :
    columnLoop unit (n + 1) p = (columnLoop unit n p).bind fun q => unit { q.1 with i := BitVec.ofNat 32 n } q.2 := by
  unfold columnLoop
  rw [List.range_succ, foldlM_snoc]

theorem copyRow_eq_map (j : Nat) :
    copyRow unit rowEnd width p j =
      (columnLoop unit width ({ p.1 with j := BitVec.ofNat 32 j }, p.2)).map fun q => rowEnd q.1 q.2 := by
  unfold copyRow
  cases columnLoop unit width ({ p.1 with j := BitVec.ofNat 32 j }, p.2) <;> rfl

theorem rowLoop_succ :
    rowLoop unit rowEnd width (n + 1) p = (rowLoop unit rowEnd width n p).bind fun q => copyRow unit rowEnd width q n := by
  unfold rowLoop
  rw [List.range_succ, foldlM_snoc]

end

section
variable {k : Kernel} {w : PixelWidth} {draws : Nat → Option Byte} {width n j : Nat} {p q : Run × Memory}

/-- The column loop leaves the command and the row alone. -/
theorem columnLoop_fields (h : columnLoop (kernelUnit k w) n p = some q) : q.1.cmd = p.1.cmd ∧ q.1.j = p.1.j := by
  refine foldlM_keeps (fun b => b.1.cmd = p.1.cmd ∧ b.1.j = p.1.j) (fun b i b' hb hu => ?_) ⟨rfl, rfl⟩ h
  obtain ⟨hc, hj, -⟩ := kernelUnit_fields hu
  exact ⟨hc.trans hb.1, hj.trans hb.2⟩

theorem copyRow_cmd (h : copyRow (kernelUnit k w) (kernelRowEnd k w draws) width p j = some q) : q.1.cmd = p.1.cmd := by
  rw [copyRow_eq_map] at h
  obtain ⟨e, hl, rfl⟩ := Option.map_eq_some_iff.1 h
  exact (kernelRowEnd_cmd k w draws e.1 e.2).trans (columnLoop_fields hl).1

/-- The row loop leaves the command alone. -/
theorem rowLoop_cmd (h : rowLoop (kernelUnit k w) (kernelRowEnd k w draws) width n p = some q) : q.1.cmd = p.1.cmd :=
  foldlM_keeps (fun b => b.1.cmd = p.1.cmd) (fun _ _ _ hb hr => (copyRow_cmd hr).trans hb) rfl h

end

/-! The sequencer follows the loops: within a row, through a row, through the rows. -/

section
variable (k : Kernel) (w : PixelWidth) (draws : Nat → Option Byte)

/-- From column 0, fewer unit transfers than the row has make the column loop's, and stand at the column after them. -/
theorem ticks_within_row (r : Run) {n : Nat} (hn : n < r.cmd.dstW.toNat) (m : Memory) :
    ticks k w draws n (some { r with i := 0 }) m =
      (columnLoop (kernelUnit k w) n (r, m)).map fun q => (some { q.1 with i := BitVec.ofNat 32 n }, q.2) := by
  induction n with
  | zero => rfl
  | succ n ih =>
    rw [ticks_add, ih (Nat.lt_of_succ_lt hn), columnLoop_succ]
    cases hl : columnLoop (kernelUnit k w) n (r, m) with
    | none => rfl
    | some q =>
      obtain ⟨hc, -⟩ := columnLoop_fields hl
      have hi : (BitVec.ofNat 32 n).toNat = n := toNat_ofNat_of_lt (Nat.lt_of_succ_lt hn)
      have hcol : ({ q.1 with i := BitVec.ofNat 32 n } : Run).i.toNat + 1 <
          ({ q.1 with i := BitVec.ofNat 32 n } : Run).cmd.dstW.toNat := by rwa [hi, hc]
      simp only [Option.map_some, Option.bind_some, ticks_one, tick_inner_column hcol, hi]

/-- From column 0, the unit transfers of a whole row make the column loop and the end of the row. -/
theorem ticks_row (r : Run) {width height j : Nat} (hW : r.cmd.dstW.toNat = width) (hH : r.cmd.dstH.toNat = height)
    (hJ : r.j.toNat = j) (hw : 0 < width) (m : Memory) :
    ticks k w draws width (some { r with i := 0 }) m =
      ((columnLoop (kernelUnit k w) width (r, m)).map fun q => kernelRowEnd k w draws q.1 q.2).map fun e =>
        (rowStart height (j + 1) e.1, e.2) := by
  obtain ⟨n, rfl⟩ := Nat.exists_eq_add_one_of_ne_zero hw.ne'
  have hlt : n < r.cmd.dstW.toNat := hW ▸ Nat.lt_succ_self n
  rw [ticks_add, ticks_within_row k w draws r hlt, columnLoop_succ]
  cases hl : columnLoop (kernelUnit k w) n (r, m) with
  | none => rfl
  | some q =>
    obtain ⟨hc, hj⟩ := columnLoop_fields hl
    have hcol : ({ q.1 with i := BitVec.ofNat 32 n } : Run).cmd.dstW.toNat ≤
        ({ q.1 with i := BitVec.ofNat 32 n } : Run).i.toNat + 1 := by
      rw [toNat_ofNat_of_lt hlt, hc, hW]
    have hheight : q.1.cmd.dstH.toNat = height := by rw [hc, hH]
    have hrow : q.1.j.toNat = j := by rw [hj, hJ]
    simp only [Option.map_some, Option.bind_some, ticks_one, tick_last_column hcol, hheight, hrow]

/-- From position `(0, 0)`, the unit transfers of the first `n` rows make the row loop's `n` iterations, and stand at row `n`. -/
theorem ticks_rows (r : Run) (hw : 0 < r.cmd.dstW.toNat) (hh : 0 < r.cmd.dstH.toNat) {n : Nat} (hn : n ≤ r.cmd.dstH.toNat)
    (m : Memory) :
    ticks k w draws (n * r.cmd.dstW.toNat) (some { r with j := 0, i := 0 }) m =
      (rowLoop (kernelUnit k w) (kernelRowEnd k w draws) r.cmd.dstW.toNat n (r, m)).map fun q =>
        (rowStart r.cmd.dstH.toNat n q.1, q.2) := by
  induction n with
  | zero =>
    rw [Nat.zero_mul]
    exact congrArg (fun p => some (p, m)) (rowStart_of_lt hh r).symm
  | succ n ih =>
    rw [Nat.succ_mul, ticks_add, ih (Nat.le_of_succ_le hn), rowLoop_succ]
    cases hl : rowLoop (kernelUnit k w) (kernelRowEnd k w draws) r.cmd.dstW.toNat n (r, m) with
    | none => rfl
    | some q =>
      have hc : q.1.cmd = r.cmd := rowLoop_cmd hl
      have hrow := ticks_row k w draws { q.1 with j := BitVec.ofNat 32 n } (by rw [hc]) (by rw [hc])
        (toNat_ofNat_of_lt hn) hw q.2
      simp only [Option.map_some, Option.bind_some, rowStart_of_lt (Nat.lt_of_succ_le hn), copyRow_eq_map, hrow]

end

/-- With a positive area a kernel is its row loop. -/
theorem runKernel_eq_rowLoop (k : Kernel) (w : PixelWidth) (draws : Nat → Option Byte) {r : Run} (hw : r.cmd.dstW ≠ 0)
    (hh : r.cmd.dstH ≠ 0) (m : Memory) :
    runKernel k w draws r m =
      (rowLoop (kernelUnit k w) (kernelRowEnd k w draws) r.cmd.dstW.toNat r.cmd.dstH.toNat (r, m)).map Prod.snd := by
  unfold runKernel
  rw [if_neg (not_or.2 ⟨hw, hh⟩)]
  cases rowLoop (kernelUnit k w) (kernelRowEnd k w draws) r.cmd.dstW.toNat r.cmd.dstH.toNat (r, m) <;> rfl

theorem toNat_pos_of_ne_zero {x : Word} (h : x ≠ 0#32) : 0 < x.toNat :=
  Nat.pos_of_ne_zero fun h0 => h (BitVec.eq_of_toNat_eq h0)

/-- Settles O51: after the last row the sequencer is idle, with the memory of the row loop (`ticks_rows` at `n = DST_H`). -/
theorem sequencerRefinesKernel : Obligations.SequencerRefinesKernel := by
  unfold Obligations.SequencerRefinesKernel
  intro k w draws cmd ctx step m hw hh
  have hticks := ticks_rows k w draws (startRun w cmd ctx step) (toNat_pos_of_ne_zero hw) (toNat_pos_of_ne_zero hh) le_rfl m
  simp only [rowStart_of_le le_rfl] at hticks
  rw [runKernel_eq_rowLoop k w draws hw hh, Option.map_map]
  exact hticks

/-! The idle engine after every step, and the register file (R39, R40). -/

/-- An access that runs leaves the engine's position alone: each of its next states is an update of another field. -/
theorem exec_access_run {t : TW} {i : Instr} {s s' : State} (hd : decodeTW t = .ok i) (h : exec i s = .next s') :
    s'.run = s.run := by
  obtain ⟨r, v, -, -, rfl⟩ | ⟨a, rfl⟩ | rfl | ⟨-, used, -, hs'⟩ := exec_access_next hd h
  · exact withRegs_run s _
  · exact withReply_run s a
  · rfl
  · rw [hs']

/-- Settles O10, by what a step can do (`step_next`): a blit in progress is finished, and an idle engine stays idle. -/
theorem engineIsIdleAfterEveryStep : Obligations.EngineIsIdleAfterEveryStep := by
  unfold Obligations.EngineIsIdleAfterEveryStep
  intro s t h
  obtain ⟨r, -, hr⟩ | ⟨hrun, hidle⟩ := step_next h
  · rw [(resumeBlit_next hr).1, finishBlit_run]
  obtain ⟨-, rfl⟩ | ⟨a, rest, i, -, -, hd, hi⟩ | ⟨a, b, rest, -, -, rfl⟩ | ⟨a, b, rest, -, -, rfl⟩ | ⟨rest, -, rfl⟩ := hidle
  · exact hrun
  · rw [exec_access_run hd hi, withHost_run, hrun]
  · rw [withMem_run, withHost_run, hrun]
  · rw [withReply_run, withHost_run, hrun]
  · exact resetEngine_run _

/-- An access that runs and changes a register is the write of a register other than START. -/
theorem exec_access_regs {t : TW} {i : Instr} {s s' : State} (hd : decodeTW t = .ok i) (h : exec i s = .next s')
    (hregs : s'.regs ≠ s.regs) : ∃ r v, r ≠ .start ∧ i = writeInstr r v := by
  obtain ⟨r, v, hr, hi, -⟩ | ⟨a, rfl⟩ | rfl | ⟨-, used, -, hs'⟩ := exec_access_next hd h
  · exact ⟨r, v, hr, hi⟩
  · exact absurd (withReply_regs s a) hregs
  · exact absurd rfl hregs
  · exact absurd (by rw [hs']) hregs

/-- Settles O44, by what a step can do (`step_next`): only an access and reset can leave another register file. -/
theorem registersChangeOnlyByWritesAndReset : Obligations.RegistersChangeOnlyByWritesAndReset := by
  unfold Obligations.RegistersChangeOnlyByWritesAndReset
  intro s t h hregs
  obtain ⟨r, -, hr⟩ | ⟨hrun, hidle⟩ := step_next h
  · exact absurd (by rw [(resumeBlit_next hr).1, finishBlit_regs]) hregs
  refine ⟨hrun, ?_⟩
  obtain ⟨-, rfl⟩ | ⟨a, rest, i, hh, hw, hd, hi⟩ | ⟨a, b, rest, -, -, rfl⟩ | ⟨a, b, rest, -, -, rfl⟩ | ⟨rest, hh, -⟩ := hidle
  · exact absurd rfl hregs
  · obtain ⟨r, v, hr, rfl⟩ := exec_access_regs hd hi hregs
    exact .inr ⟨a, rest, r, v, hh, hw, hd, hr⟩
  · exact absurd (by rw [withMem_regs, withHost_regs]) hregs
  · exact absurd (by rw [withReply_regs, withHost_regs]) hregs
  · exact .inl ⟨rest, hh⟩

/-- Settles O48: reset lists no byte, holds 0 in every register and has no blit in progress. -/
theorem resetMeetsInvariant : Obligations.ResetMeetsInvariant := by
  unfold Obligations.ResetMeetsInvariant
  exact ⟨empty_wf, by decide, by decide, rfl⟩

/-! SCALE under an unscaled blit (R32). -/

section
variable (cmd : Cmd) (ctx : Ctx) (step : Word) (m : Memory) (draws : Nat → Option Byte) (v : Word)

/-- The kernel a command selects does not read SCALE: no address of its transfers depends on it. -/
theorem runKernel_scale (w : PixelWidth) :
    runKernel (table (flagsKey cmd.flags)) w draws (startRun w { cmd with scale := v } ctx step) m =
      runKernel (table (flagsKey cmd.flags)) w draws (startRun w cmd ctx step) m := by
  by_cases hz : cmd.dstW = 0 ∨ cmd.dstH = 0
  · exact (if_pos hz).trans (if_pos hz).symm
  · obtain ⟨hw, hh⟩ := not_or.1 hz
    rw [runKernel_eq w cmd ctx step draws hw hh]
    exact runKernel_eq w { cmd with scale := v } ctx step draws hw hh m

variable {cmd}

/-- An unscaled command has no reciprocal, whatever SCALE is (R143 step 2). -/
theorem stepOf_unscaled (h : scaled cmd.flags = false) : stepOf cmd = some 0 :=
  if_neg (ne_true_of_eq_false h)

/-- `Legal` reads SCALE in LG1 only, which asks nothing of an unscaled command (R182). -/
theorem legal_scale (h : scaled cmd.flags = false) (c : Config) :
    legal c { cmd with scale := v } ctx m step = legal c cmd ctx m step := by
  have hl (cmd' : Cmd) (h' : scaled cmd'.flags = false) : legalScale cmd' = true := by simp [legalScale, h']
  unfold legal
  rw [hl cmd h, hl { cmd with scale := v } h]
  rfl

/-- `Blit` of an unscaled command does not depend on SCALE, refusals included. -/
theorem blit_scale (h : scaled cmd.flags = false) (c : Config) :
    blit c { cmd with scale := v } ctx m draws = blit c cmd ctx m draws := by
  unfold blit
  rw [stepOf_unscaled h, stepOf_unscaled (cmd := { cmd with scale := v }) h]
  simp only [legal_scale ctx 0 m v h c, runKernel_scale cmd ctx 0 m draws v c.width]
  rfl

end

/-- A write of SCALE changes that field of a blit operation's command. -/
theorem commandFor_writeReg_scale (key : BitVec 3) (oe : Bool) (s : State) (v : Word) :
    commandFor key oe (s.withRegs (writeReg .scale v s.regs)) = { commandFor key oe s with scale := v } := rfl

theorem snapshotCtx_writeReg_scale (v : Word) (g : Regs) : snapshotCtx (writeReg .scale v g) = snapshotCtx g := rfl

theorem slackDraws_withRegs (s : State) (g : Regs) : slackDraws (s.withRegs g) = slackDraws s := rfl

/-- Settles O40: the written SCALE is all that differs in the command, and `Blit` leaves the registers alone. -/
theorem unscaledBlitIgnoresScale : Obligations.UnscaledBlitIgnoresScale := by
  unfold Obligations.UnscaledBlitIgnoresScale
  intro key oe s v hkey
  have hflags : scaled (commandFor key oe s).flags = false := (scaled_flagsWord key oe).trans hkey
  rw [exec_blitInstr, exec_blitInstr]
  unfold runBlit
  rw [commandFor_writeReg_scale, withRegs_regs, snapshotCtx_writeReg_scale, slackDraws_withRegs, withRegs_cfg, withRegs_mem,
    blit_scale _ _ _ _ hflags]
  cases blit s.cfg (commandFor key oe s) (snapshotCtx s.regs) s.mem (slackDraws s) <;> rfl

end Sys2Proof.Machine
end

section
/-! PROOFS. Memory (20_memory.md): the unit addresses and their alignment (R52, R53, R55), the bytes a blit reads (R58), and the
host's own accesses (R64). -/

namespace Sys2Proof.Machine

/-! The unit addresses (R52, R53). -/

theorem toNat_unitWord (w : PixelWidth) : (unitWord w).toNat = unitSize w := by
  cases w <;> rfl

/-- The form that `srcAddr` and `dstAddr` share, read as natural numbers: the sums and products of the datapath are those of the
numbers, reduced once at the end (R50). -/
theorem toNat_base_add_units (w : PixelWidth) (base row stride col : Word) :
    (base + (row * stride + col) * unitWord w).toNat =
      (base.toNat + (row.toNat * stride.toNat + col.toNat) * unitSize w) % 2 ^ 32 := by
  simp only [BitVec.toNat_add, BitVec.toNat_mul, toNat_unitWord, Nat.mod_add_mod, Nat.add_mod_mod, Nat.mod_mul_mod]

theorem toNat_srcAddr (w : PixelWidth) (cmd : Cmd) (r c : Word) :
    (srcAddr w cmd r c).toNat =
      (cmd.srcBase.toNat + (r.toNat * cmd.srcStride.toNat + c.toNat) * unitSize w) % 2 ^ 32 :=
  toNat_base_add_units w cmd.srcBase r cmd.srcStride c

theorem toNat_dstAddr (w : PixelWidth) (ctx : Ctx) (y x : Word) :
    (dstAddr w ctx y x).toNat =
      (ctx.fbBase.toNat + (y.toNat * ctx.fbPitch.toNat + x.toNat) * unitSize w) % 2 ^ 32 :=
  toNat_base_add_units w ctx.fbBase y ctx.fbPitch x

/-- Settles O55: both addresses are a base plus whole units. -/
theorem unitAddressesWrap : Obligations.UnitAddressesWrap := by
  unfold Obligations.UnitAddressesWrap
  intro w cmd ctx r c
  exact ⟨toNat_srcAddr w cmd r c, toNat_dstAddr w ctx r c⟩

/-! Alignment (R55, R95). -/

theorem unitSize_dvd_two_pow (w : PixelWidth) : unitSize w ∣ 2 ^ 32 := by
  cases w <;> decide

theorem aligned_iff_dvd {a : Word} {n : Nat} : aligned a n = true ↔ n ∣ a.toNat := by
  rw [aligned, beq_iff_eq, Nat.dvd_iff_mod_eq_zero]

/-- LG4 asks for both bases to be multiples of U (R182). -/
theorem legalAlignment_iff {w : PixelWidth} {cmd : Cmd} {ctx : Ctx} :
    legalAlignment w cmd ctx = true ↔ unitSize w ∣ cmd.srcBase.toNat ∧ unitSize w ∣ ctx.fbBase.toNat := by
  rw [legalAlignment, Bool.and_eq_true, aligned_iff_dvd, aligned_iff_dvd]

/-- Whole units past a multiple of U are a multiple of U, also where the address wraps: U divides `2^32`. -/
theorem base_add_units_mod_unitSize (w : PixelWidth) {base : Nat} (h : unitSize w ∣ base) (n : Nat) :
    (base + n * unitSize w) % 2 ^ 32 % unitSize w = 0 :=
  Nat.mod_eq_zero_of_dvd <|
    (Nat.dvd_mod_iff (unitSize_dvd_two_pow w)).2 (Nat.dvd_add h (Nat.dvd_mul_left (unitSize w) n))

/-- Settles O56: with the addresses as natural numbers, each is whole units past an aligned base. -/
theorem unitAddressesAreAligned : Obligations.UnitAddressesAreAligned := by
  unfold Obligations.UnitAddressesAreAligned
  intro w cmd ctx r c h
  obtain ⟨hsrc, hfb⟩ := legalAlignment_iff.1 h
  rw [toNat_srcAddr, toNat_dstAddr]
  exact ⟨base_add_units_mod_unitSize w hsrc _, base_add_units_mod_unitSize w hfb _⟩

/-! The bytes a blit reads (R58). -/

/-- A blit operation changes no byte outside its write set (R153, R182). -/
theorem runBlit_frame {key : BitVec 3} {oe : Bool} {s t : State} (h : runBlit key oe s = .next t) {a : Word}
    (ha : a ∉ writeSet s.cfg.width (commandFor key oe s) (snapshotCtx s.regs)) : readByte t.mem a = readByte s.mem a := by
  obtain ⟨used, hb, -⟩ := runBlit_next h
  obtain ⟨hnominal, hslack⟩ := not_or.1 (List.mem_append.not.1 ha)
  exact blit_frame hb hnominal hslack

/-- Settles O38: a command in `Legal` writes none of the bytes it reads (LG5), and a byte not written stays. -/
theorem sourceIsUnchanged : Obligations.SourceIsUnchanged := by
  unfold Obligations.SourceIsUnchanged
  intro key oe s t step hruns h a ha
  rw [exec_blitInstr] at h
  obtain ⟨hdisjoint, -, -⟩ := legal_sets hruns.vouched
  exact runBlit_frame h (hdisjoint a ha)

/-! The host's own accesses (R44, R64). -/

/-- An idle engine's step performs the host's next operation (R170). -/
theorem step_of_host_cons {s : State} {op : HostOp} {rest : List HostOp} (hrun : s.run = none)
    (hhost : s.host = op :: rest) : step s = performOp op (s.withHost rest) := by
  rw [step_of_run_none hrun, stepIdle, hhost]

/-- A store the platform admits writes its byte and nothing else. -/
theorem step_storeByte {s : State} {a : Word} {b : Byte} {rest : List HostOp} (hrun : s.run = none)
    (hhost : s.host = .storeByte a b :: rest) (h : platformWrites s.cfg a = true) :
    step s = .next ((s.withHost rest).withMem (writeByte s.mem a b)) :=
  (step_of_host_cons hrun hhost).trans (if_pos h)

/-- A load the platform admits answers the byte that stands there and does nothing else. -/
theorem step_loadByte {s : State} {a : Word} {b : Byte} {rest : List HostOp} (hrun : s.run = none)
    (hhost : s.host = .loadByte a :: rest) (h : platformReads s.cfg a = true) (hb : readByte s.mem a = some b) :
    step s = .next ((s.withHost rest).withReply (.byte b)) := by
  rw [step_of_host_cons hrun hhost, performOp, hostLoad, withHost_cfg, withHost_mem, if_pos h, hb]

/-- Settles O49: the first step stores the byte, the second finds it there. -/
theorem hostStoreIsSeenByHostLoad : Obligations.HostStoreIsSeenByHostLoad := by
  unfold Obligations.HostStoreIsSeenByHostLoad
  intro s a b rest hrun hhost hwrites hreads
  have hstore := step_storeByte hrun hhost hwrites
  have hload := step_loadByte (s := (s.withHost (.loadByte a :: rest)).withMem (writeByte s.mem a b)) hrun rfl hreads
    (readByte_writeByte_same s.mem a b)
  exact ⟨_, _, hstore, hload, rfl, rfl, rfl, rfl, fun x hx => readByte_writeByte_other s.mem b hx⟩

end Sys2Proof.Machine
end

section
/-! PROOFS. Encoding (30_encoding.md): the two directions of the coder (R70 to R78), the bits it ignores (R77, R79), the operation
a FLAGS word selects (R72, R73), and the reserved bits among what every step keeps (R79). -/

namespace Sys2Proof.Machine

/-! The three families of instructions and their code words. -/

/-- Every instruction is a blit operation, the write of a register or the read of one (R70). -/
theorem instr_cases : ∀ i : Instr,
    (∃ key oe, i = blitInstr key oe) ∨ (∃ r v, i = writeInstr r v) ∨ (∃ r, i = readInstr r)
  | .blt oe => .inl ⟨0#3, oe, rfl⟩
  | .bltH oe => .inl ⟨1#3, oe, rfl⟩
  | .bltV oe => .inl ⟨2#3, oe, rfl⟩
  | .bltHV oe => .inl ⟨3#3, oe, rfl⟩
  | .blts oe => .inl ⟨4#3, oe, rfl⟩
  | .bltsH oe => .inl ⟨5#3, oe, rfl⟩
  | .bltsV oe => .inl ⟨6#3, oe, rfl⟩
  | .bltsHV oe => .inl ⟨7#3, oe, rfl⟩
  | .wrSrcBase v => .inr (.inl ⟨.srcBase, v, rfl⟩)
  | .wrSrcW v => .inr (.inl ⟨.srcW, v, rfl⟩)
  | .wrSrcH v => .inr (.inl ⟨.srcH, v, rfl⟩)
  | .wrSrcStride v => .inr (.inl ⟨.srcStride, v, rfl⟩)
  | .wrSrcX v => .inr (.inl ⟨.srcX, v, rfl⟩)
  | .wrSrcY v => .inr (.inl ⟨.srcY, v, rfl⟩)
  | .wrDstX v => .inr (.inl ⟨.dstX, v, rfl⟩)
  | .wrDstY v => .inr (.inl ⟨.dstY, v, rfl⟩)
  | .wrDstW v => .inr (.inl ⟨.dstW, v, rfl⟩)
  | .wrDstH v => .inr (.inl ⟨.dstH, v, rfl⟩)
  | .wrScale v => .inr (.inl ⟨.scale, v, rfl⟩)
  | .wrFlags v => .inr (.inl ⟨.flags, v, rfl⟩)
  | .wrFbBase v => .inr (.inl ⟨.fbBase, v, rfl⟩)
  | .wrFbPitch v => .inr (.inl ⟨.fbPitch, v, rfl⟩)
  | .wrCtrl v => .inr (.inl ⟨.ctrl, v, rfl⟩)
  | .go => .inr (.inl ⟨.start, 1#32, rfl⟩)
  | .wrStartEven => .inr (.inl ⟨.start, 0#32, rfl⟩)
  | .rdSrcBase => .inr (.inr ⟨.srcBase, rfl⟩)
  | .rdSrcW => .inr (.inr ⟨.srcW, rfl⟩)
  | .rdSrcH => .inr (.inr ⟨.srcH, rfl⟩)
  | .rdSrcStride => .inr (.inr ⟨.srcStride, rfl⟩)
  | .rdSrcX => .inr (.inr ⟨.srcX, rfl⟩)
  | .rdSrcY => .inr (.inr ⟨.srcY, rfl⟩)
  | .rdDstX => .inr (.inr ⟨.dstX, rfl⟩)
  | .rdDstY => .inr (.inr ⟨.dstY, rfl⟩)
  | .rdDstW => .inr (.inr ⟨.dstW, rfl⟩)
  | .rdDstH => .inr (.inr ⟨.dstH, rfl⟩)
  | .rdScale => .inr (.inr ⟨.scale, rfl⟩)
  | .rdFlags => .inr (.inr ⟨.flags, rfl⟩)
  | .rdFbBase => .inr (.inr ⟨.fbBase, rfl⟩)
  | .rdFbPitch => .inr (.inr ⟨.fbPitch, rfl⟩)
  | .rdCtrl => .inr (.inr ⟨.ctrl, rfl⟩)
  | .rdStart => .inr (.inr ⟨.start, rfl⟩)

/-- The data the encoder writes for a register write: the value, with the ignored bits of START's data 0 (R77). -/
def encodedData (r : RegName) (v : Word) : Word :=
  if r = .start then (if v.getLsbD 0 then 1#32 else 0#32) else v

theorem encodedData_of_ne_start {r : RegName} (h : r ≠ .start) (v : Word) : encodedData r v = v := if_neg h

/-- Bit 0 of the data is ignored for no register (R77). -/
theorem encodedData_getLsbD_zero (r : RegName) (v : Word) : (encodedData r v).getLsbD 0 = v.getLsbD 0 := by
  unfold encodedData
  split
  · cases v.getLsbD 0 <;> rfl
  · rfl

/-- The ignored bits of the data do not matter to the write (R77). -/
theorem writeInstr_encodedData (r : RegName) (v : Word) : writeInstr r (encodedData r v) = writeInstr r v := by
  cases r with
  | start => simp only [writeInstr, encodedData_getLsbD_zero]
  | _ => rfl

theorem encode_blitInstr (key : BitVec 3) (oe : Bool) : encode (blitInstr key oe) = .cmd (flagsWord key oe) :=
  blitInstr_cases (fun key => encode (blitInstr key oe) = .cmd (flagsWord key oe)) rfl rfl rfl rfl rfl rfl rfl rfl key

theorem encode_writeInstr (r : RegName) (v : Word) :
    encode (writeInstr r v) = .tw (mkTW true (regOffset r) (encodedData r v)) := by
  cases r with
  | start =>
    simp only [writeInstr, encodedData, ↓reduceIte]
    split <;> rfl
  | _ => rfl

theorem encode_readInstr (r : RegName) : encode (readInstr r) = .tw (mkTW false (regOffset r) 0#32) := by
  cases r <;> rfl

/-- A FLAGS word selects the operation of its key and modifier (R72, R73). -/
theorem decodeFlags_flagsWord (key : BitVec 3) (oe : Bool) : decodeFlags (flagsWord key oe) = blitInstr key oe := by
  rw [decodeFlags, flagsKey_flagsWord, flagsOE_flagsWord]

/-- Settles O1, family by family: the decoder reads back the key and modifier of a blit, the register and data of a write, the
register of a read. -/
theorem decodeEncodeRoundTrip : Obligations.DecodeEncodeRoundTrip := by
  unfold Obligations.DecodeEncodeRoundTrip
  intro i
  obtain ⟨key, oe, rfl⟩ | ⟨r, v, rfl⟩ | ⟨r, rfl⟩ := instr_cases i
  · rw [encode_blitInstr, decode, decodeFlags_flagsWord]
  · rw [encode_writeInstr, decode, decodeTW_mkTW, if_pos rfl, writeInstr_encodedData]
  · rw [encode_readInstr, decode, decodeTW_mkTW, if_neg Bool.false_ne_true]

/-! What every step keeps (R79, R171). -/

/-- What is masked holds 0 in every bit outside the mask. -/
theorem and_mask_and_not (v mask : Word) : v &&& mask &&& ~~~mask = 0#32 := by
  rw [BitVec.and_assoc, BitVec.and_not_self]
  exact BitVec.and_zero

/-- A register write leaves the reserved bits of FLAGS and CTRL 0: it stores none of them (R79). -/
theorem writeReg_reserved_zero {g : Regs} (hf : g.cmd.flags &&& ~~~flagsMask = 0#32) (hc : g.ctrl &&& ~~~ctrlMask = 0#32)
    (r : RegName) (v : Word) :
    (writeReg r v g).cmd.flags &&& ~~~flagsMask = 0#32 ∧ (writeReg r v g).ctrl &&& ~~~ctrlMask = 0#32 := by
  cases r with
  | flags => exact ⟨and_mask_and_not v flagsMask, hc⟩
  | ctrl => exact ⟨hf, and_mask_and_not v ctrlMask⟩
  | _ => exact ⟨hf, hc⟩

/-- An access that runs keeps the invariant: a write by `writeReg_reserved_zero`, a blit by `blit_wf`. -/
theorem exec_access_inv {t : TW} {i : Instr} {s s' : State} (hd : decodeTW t = .ok i) (h : exec i s = .next s')
    (hs : s.Inv) : s'.Inv := by
  obtain ⟨hm, hf, hc, hr⟩ := hs
  obtain ⟨r, v, -, -, rfl⟩ | ⟨a, rfl⟩ | rfl | ⟨-, used, hb, hs'⟩ := exec_access_next hd h
  · obtain ⟨hf', hc'⟩ := writeReg_reserved_zero hf hc r v
    exact ⟨hm, hf', hc', hr⟩
  · exact ⟨hm, hf, hc, hr⟩
  · exact ⟨hm, hf, hc, hr⟩
  · rw [hs']
    exact ⟨blit_wf hb hm, hf, hc, hr⟩

/-- Settles O47, by what a step can do (`step_next`): memory changes by writes, which keep the canonical form, and registers by an
access or by reset. -/
theorem stepKeepsInvariant : Obligations.StepKeepsInvariant := by
  unfold Obligations.StepKeepsInvariant
  intro s t hs h
  obtain ⟨hm, hf, hc, hr⟩ := hs
  obtain ⟨r, -, hresume⟩ | ⟨-, hidle⟩ := step_next h
  · obtain ⟨ht, hwf⟩ := resumeBlit_next hresume
    rw [ht]
    exact ⟨hwf hm, hf, hc, rfl⟩
  obtain ⟨-, rfl⟩ | ⟨a, rest, i, -, -, hd, hi⟩ | ⟨a, b, rest, -, -, rfl⟩ | ⟨a, b, rest, -, -, rfl⟩ | ⟨rest, -, rfl⟩ := hidle
  · exact ⟨hm, hf, hc, hr⟩
  · exact exec_access_inv hd hi ⟨hm, hf, hc, hr⟩
  · exact ⟨writeByte_wf hm a b, hf, hc, hr⟩
  · exact ⟨hm, hf, hc, hr⟩
  · obtain ⟨-, hf0, hc0, -⟩ := resetMeetsInvariant
    exact ⟨hm, hf0, hc0, rfl⟩

/-! A transaction word that decodes, and the bits that are ignored. -/

/-- Every offset of a whole word is a register's (R80). -/
theorem regOffset_regAt {off : BitVec 6} (h : off.extractLsb' 0 2 = 0#2) :
    regOffset (regAt (off.extractLsb' 2 4)) = off := by
  revert off
  decide

/-- A transaction word that decodes holds the offset of the register that is written or read. -/
theorem decodeTW_ok_offset {t : TW} {i : Instr} (h : decodeTW t = .ok i) :
    ∃ r, twOffset t = regOffset r ∧ i = if twWrite t then writeInstr r (twData t) else readInstr r := by
  unfold decodeTW at h
  split at h
  · next ha =>
    cases h
    exact ⟨_, (regOffset_regAt ha).symm, rfl⟩
  · cases h

/-- Settles O2: the encoder's word has the register's offset, and its data is the word's in every bit that is not ignored
(`encodedData`). -/
theorem decodedTransactionEncodesBack : Obligations.DecodedTransactionEncodesBack := by
  unfold Obligations.DecodedTransactionEncodesBack
  intro t i h
  obtain ⟨r, hoff, rfl⟩ := decodeTW_ok_offset h
  cases hw : twWrite t with
  | false => exact ⟨_, encode_readInstr r, by simp, by simp [hoff], nofun, nofun⟩
  | true =>
    refine ⟨_, encode_writeInstr r (twData t), by simp, by simp [hoff], fun _ hne => ?_, fun _ _ => ?_⟩
    · have hr : r ≠ .start := fun hstart => hne (by rw [hoff, hstart]; rfl)
      rw [twData_mkTW, encodedData_of_ne_start hr]
    · rw [twData_mkTW, encodedData_getLsbD_zero]

/-- The reserved bits of a FLAGS word do not matter to the operation it selects (R79). -/
theorem decodeFlags_and_flagsMask (f : Word) : decodeFlags (f &&& flagsMask) = decodeFlags f := by
  rw [← flagsWord_of_read, decodeFlags_flagsWord, decodeFlags]

/-- Settles O3: a read and a write of START decode by the register's offset, a FLAGS word by its four defined bits. -/
theorem ignoredBitsDoNotMatter : Obligations.IgnoredBitsDoNotMatter := by
  unfold Obligations.IgnoredBitsDoNotMatter
  exact ⟨decodeTW_mkTW false, decodeTW_mkTW true .start, fun f => (decodeFlags_and_flagsMask f).symm⟩

/-- A register's write and the read of it: the host is answered with the bits that were stored (R79, R171, R172). -/
theorem exec_write_then_read {r : RegName} (h : r ≠ .start) (v : Word) (s : State) :
    andThen (exec (writeInstr r v) s) (exec (readInstr r)) =
      .next ((s.withRegs (writeReg r v s.regs)).withReply (.word (storedBits r v))) := by
  rw [exec_writeInstr h, andThen, exec_readInstr, withRegs_regs, readReg_writeReg_same]

/-- Settles O17: the write stores the defined bits, and a read masks them in every state. -/
theorem reservedBitsReadZero : Obligations.ReservedBitsReadZero := by
  unfold Obligations.ReservedBitsReadZero
  intro v s
  exact ⟨⟨_, exec_write_then_read (r := .flags) nofun v s, rfl⟩, ⟨_, exec_write_then_read (r := .ctrl) nofun v s, rfl⟩,
    and_mask_and_not s.regs.cmd.flags flagsMask, and_mask_and_not s.regs.ctrl ctrlMask⟩

/-! The operation a FLAGS word selects (R72, R73). -/

/-- Settles O19: GO and the operation FLAGS selects run the same blit. -/
theorem goRunsTheOperationFlagsSelects : Obligations.GoRunsTheOperationFlagsSelects := by
  unfold Obligations.GoRunsTheOperationFlagsSelects
  intro s
  rw [exec_go, decodeFlags, exec_blitInstr]

/-- Settles O4: each word is closed, and the decoder computes its instruction. -/
theorem sampleWordsDecode : Obligations.SampleWordsDecode := by
  unfold Obligations.SampleWordsDecode
  exact ⟨rfl, rfl, rfl, rfl, rfl, rfl, rfl, rfl⟩

/-- A number below `2^32` in a row of 32 bits is a FLAGS word (log 12). -/
theorem tableWord_toNat (f : Word) : tableWord 32 f.toNat = some (.cmd f) := by
  rw [tableWord, if_pos le_rfl, if_pos f.isLt, BitVec.ofNat_toNat, BitVec.setWidth_eq]

/-- A FLAGS word placed for the host stands in FLAGS, and the step runs GO (R83, log 4). -/
theorem step_placeCodeWord_cmd (s : State) (f : Word) :
    step (placeCodeWord (.cmd f) s) = exec .go { s with run := none, regs := writeReg .flags f s.regs } := by
  have hgo : decodeTW (mkTW true 0x3C#6 1#32) = .ok .go := decodeTW_mkTW true .start 1#32
  have hwf : Access.wellFormed ⟨.word, mkTW true 0x3C#6 1#32⟩ = true := by decide
  rw [step_of_host_cons (s := placeCodeWord (.cmd f) s) rfl rfl, performOp, performAccess, if_pos hwf, hgo]
  rfl

/-- Settles O6: the step is GO, which runs what FLAGS selects, and the reserved bits FLAGS does not store select nothing. -/
theorem stepRunsFlagsWord : Obligations.StepRunsFlagsWord := by
  unfold Obligations.StepRunsFlagsWord
  intro s f
  have hread : readReg .flags (writeReg .flags f s.regs) = f &&& flagsMask := readReg_writeReg_same .flags f s.regs
  rw [State.withFetchWord, tableWord_toNat, step_placeCodeWord_cmd, goRunsTheOperationFlagsSelects, hread,
    decodeFlags_and_flagsMask]

end Sys2Proof.Machine
end

section
/-! PROOFS. The pixel format (40_pixel_format.md): `swapUnit` (R92) and the mirrored write path (R94). -/

namespace Sys2Proof.Machine

/-- `swapUnit` undoes itself: one width leaves the unit as it is, the other reverses it (R92). -/
@[simp] theorem swapUnit_swapUnit (w : PixelWidth) (b : List Byte) : swapUnit w (swapUnit w b) = b := by
  cases w with
  | w8 => rfl
  | w16 => exact b.reverse_reverse

/-- Settles O53: `DecWrite` reverses the bytes that `swapUnit` has reversed, and one byte has no order (`decWrite_swapUnit`). -/
theorem mirroredWriteKeepsUnit : Obligations.MirroredWriteKeepsUnit := by
  unfold Obligations.MirroredWriteKeepsUnit
  intro w m a b h
  exact decWrite_swapUnit w m a h

/-- Settles O54: on units of one and of two bytes `swapUnit` computes, and it undoes itself on every list. -/
theorem swapUnitReversesBytes : Obligations.SwapUnitReversesBytes := by
  unfold Obligations.SwapUnitReversesBytes
  exact ⟨fun _ => rfl, fun _ _ => rfl, swapUnit_swapUnit⟩

end Sys2Proof.Machine
end

section
/-! PROOFS. The scanline copy (41_scanline_copy.md): the mirror round trip (R102), the wide path against the reference loop (R103,
R107), the gates of the packed paths (R105, R106), and the slack (R108). -/

namespace Sys2Proof.Machine

/-! Where slack is permitted (R105, R106, R108). -/

/-- Slack is permitted at W = 8 with OVERWRITE_EDGES and without scaling (R108). -/
theorem slackPermitted_iff {w : PixelWidth} {cmd : Cmd} :
    slackPermitted w cmd = true ↔ w = .w8 ∧ flagsOE cmd.flags = true ∧ scaled cmd.flags = false := by
  simp [slackPermitted, and_assoc]

/-- The gate of either packed path asks for W = 8 and OVERWRITE_EDGES (R105, R106). -/
theorem width_and_edges_of_packedGate {w : PixelWidth} {edge : Word} {r : Run}
    (h : packedStraightGate w r = true ∨ packedMirroredGate w edge r = true) : w = .w8 ∧ flagsOE r.cmd.flags = true := by
  simp only [packedStraightGate, packedMirroredGate, Bool.and_eq_true, beq_iff_eq] at h
  obtain ⟨⟨⟨⟨hw, -⟩, -⟩, -⟩, hoe⟩ | ⟨⟨⟨⟨hw, -⟩, -⟩, -⟩, hoe⟩ := h
  · exact ⟨hw, hoe⟩
  · exact ⟨hw, hoe⟩

/-- Settles O37: W = 8 and OVERWRITE_EDGES by the gate, and the row is unscaled. -/
theorem packedGatesOpenOnlyWithSlack : Obligations.PackedGatesOpenOnlyWithSlack := by
  unfold Obligations.PackedGatesOpenOnlyWithSlack
  intro w edge r hscaled hgate
  obtain ⟨hw, hoe⟩ := width_and_edges_of_packedGate hgate
  exact slackPermitted_iff.2 ⟨hw, hoe, hscaled⟩

/-! What touches a slack unit (R108). -/

section
variable {w : PixelWidth} {cmd : Cmd} {ctx : Ctx}

/-- The bytes of every destination unit are in the nominal rectangle (R14). -/
theorem mem_nominalBytes_of_mem_unit {j i : Nat} (hj : j < cmd.dstH.toNat) (hi : i < cmd.dstW.toNat) {a : Word}
    (ha : a ∈ unitBytes w (dstUnitAddr w cmd ctx j i)) : a ∈ nominalBytes w cmd ctx :=
  List.mem_flatMap.2 ⟨j, List.mem_range.2 hj, List.mem_flatMap.2 ⟨i, List.mem_range.2 hi, ha⟩⟩

/-- A blit that is permitted no slack has no slack bytes. -/
theorem slackBytes_eq_nil (h : slackPermitted w cmd ≠ true) : slackBytes w cmd ctx = [] := if_neg h

/-- A slack unit that lies outside the rectangle and is shared by no other row is written by its own row's slack write only. -/
theorem eq_slack_of_writes_slackAddr {step : Word} {draws : Nat → Option Byte} {t : Transfer} {j : Nat}
    (ht : t ∈ transfersOf w cmd ctx step draws cmd.dstH.toNat)
    (houtside : slackAddr w cmd ctx j ∉ nominalBytes w cmd ctx)
    (hown : ∀ j' < cmd.dstH.toNat, slackAddr w cmd ctx j' = slackAddr w cmd ctx j → j' = j)
    (hwrites : slackAddr w cmd ctx j ∈ t.writes w) :
    ∃ x, draws j = some x ∧ t = .slack (slackAddr w cmd ctx j) x := by
  obtain ⟨j', hj', i, hi, rfl⟩ | ⟨j', hj', x, -, hx, rfl⟩ := mem_transfersOf cmd ctx step draws ht
  · exact absurd (mem_nominalBytes_of_mem_unit hj' hi hwrites) houtside
  · obtain rfl := hown j' hj' (List.mem_singleton.1 hwrites).symm
    exact ⟨x, hx, rfl⟩

/-- A slack unit of that kind is left alone where nothing is drawn for its row, and holds what is drawn otherwise. -/
theorem readByte_slackAddr {step : Word} {draws : Nat → Option Byte} {m m' : Memory} {j : Nat} (hj : j < cmd.dstH.toNat)
    (h : (transfersOf w cmd ctx step draws cmd.dstH.toNat).foldlM (applyTransfer w) m = some m')
    (hp : slackPermitted w cmd = true) (houtside : slackAddr w cmd ctx j ∉ nominalBytes w cmd ctx)
    (hown : ∀ j' < cmd.dstH.toNat, slackAddr w cmd ctx j' = slackAddr w cmd ctx j → j' = j) :
    readByte m' (slackAddr w cmd ctx j) = (draws j).or (readByte m (slackAddr w cmd ctx j)) := by
  cases hx : draws j with
  | none =>
    refine transfers_frame h fun t ht hwrites => ?_
    obtain ⟨x, hsome, -⟩ := eq_slack_of_writes_slackAddr ht houtside hown hwrites
    simp [hx] at hsome
  | some x =>
    obtain ⟨l1, l2, hsplit, hlater⟩ := transfersOf_split_slack cmd ctx step draws hj hp hx
    rw [hsplit] at h
    refine transfers_last_slack h fun t ht hwrites => ?_
    have hmem : t ∈ transfersOf w cmd ctx step draws cmd.dstH.toNat := by simp [hsplit, ht]
    obtain ⟨y, -, rfl⟩ := eq_slack_of_writes_slackAddr hmem houtside hown hwrites
    obtain ⟨j', i', -, -, -, he⟩ | ⟨j', z, hlt, hj', he⟩ := hlater _ ht
    · cases he
    · obtain ⟨haddr, -⟩ := Transfer.slack.inj he
      exact hlt.ne' (hown j' hj' haddr.symm)

end

/-- Settles O36: the slack write of a row is the only transfer that can touch its unit, and without permission there is none. -/
theorem slackIsLeftAloneOrDrawn : Obligations.SlackIsLeftAloneOrDrawn := by
  unfold Obligations.SlackIsLeftAloneOrDrawn
  intro c cmd ctx m m' draws used h hdraw hwidth
  refine ⟨fun hp j hj houtside hown => ?_, fun hno a ha => ?_⟩
  · obtain ⟨-, -, hs | hw0 | hh0⟩ | ⟨step, -, -, -, -, -, -, hk⟩ := blit_ok h
    · simp [hdraw] at hs
    · exact absurd hw0 hwidth
    · simp [hh0] at hj
    · rw [readByte_slackAddr hj hk hp houtside hown]
      cases draws j <;> rfl
  · have hp : slackPermitted c.width cmd ≠ true := by
      rw [ne_eq, slackPermitted_iff]
      rintro ⟨hw, hoe, hscaled⟩
      simp [hw, hoe, hscaled] at hno
    exact blit_frame h ha (by simp [slackBytes_eq_nil hp])

/-! The units a blit copies hold what their sources held (R153, R61). -/

/-- Two multiples of U that differ are U apart, so their units share no byte (R55). -/
theorem unitBytes_disjoint {w : PixelWidth} {a b x : Word} (ha : a.toNat % unitSize w = 0) (hb : b.toNat % unitSize w = 0)
    (hxa : x ∈ unitBytes w a) (hxb : x ∈ unitBytes w b) : a = b := by
  obtain ⟨k, hk, rfl⟩ := mem_unitBytes.1 hxa
  obtain ⟨l, hl, he⟩ := mem_unitBytes.1 hxb
  cases w with
  | w8 =>
    obtain rfl : k = 0 := Nat.lt_one_iff.1 hk
    obtain rfl : l = 0 := Nat.lt_one_iff.1 hl
    simpa using he
  | w16 =>
    simp only [unitSize] at ha hb hk hl
    have hn := congrArg BitVec.toNat he
    simp only [BitVec.toNat_add, BitVec.toNat_ofNat] at hn
    apply BitVec.eq_of_toNat_eq
    omega

section
variable {c : Config} {cmd : Cmd} {ctx : Ctx} {step : Word} {m m' : Memory} {draws : Nat → Option Byte}

theorem legalAlignment_of_legal (h : legal c cmd ctx m step = true) : legalAlignment c.width cmd ctx = true := by
  simp only [legal, Bool.and_eq_true] at h
  obtain ⟨⟨⟨-, halign⟩, -⟩, -⟩ := h
  exact halign

/-- Destination units of a legal command at different addresses share no byte. -/
theorem dstUnits_disjoint (h : legal c cmd ctx m step = true) {j i j' i' : Nat} {a : Word}
    (ha : a ∈ unitBytes c.width (dstUnitAddr c.width cmd ctx j i))
    (ha' : a ∈ unitBytes c.width (dstUnitAddr c.width cmd ctx j' i')) :
    dstUnitAddr c.width cmd ctx j' i' = dstUnitAddr c.width cmd ctx j i := by
  have haligned (j i : Nat) : (dstUnitAddr c.width cmd ctx j i).toNat % unitSize c.width = 0 :=
    (unitAddressesAreAligned c.width cmd ctx (dstRowIndex cmd j) (dstColIndex cmd i) (legalAlignment_of_legal h)).2
  exact unitBytes_disjoint (haligned j' i') (haligned j i) ha' ha

/-- No transfer of a legal command writes a byte of a unit it copies (LG5). -/
theorem source_not_written (h : legal c cmd ctx m step = true) {j i : Nat} (hj : j < cmd.dstH.toNat)
    (hi : i < cmd.dstW.toNat) {t : Transfer} (ht : t ∈ transfersOf c.width cmd ctx step draws cmd.dstH.toNat) {a : Word}
    (ha : a ∈ unitBytes c.width (srcUnitAddr c.width cmd step j i)) : a ∉ t.writes c.width := fun hwrites => by
  have hread : a ∈ readSet c.width cmd step :=
    List.mem_append_left _ (List.mem_flatMap.2 ⟨j, List.mem_range.2 hj, List.mem_flatMap.2 ⟨i, List.mem_range.2 hi, ha⟩⟩)
  obtain ⟨hdisjoint, -, -⟩ := legal_sets h
  exact hdisjoint a hread (List.mem_append.2 (transfer_writes _ ht hwrites))

/-- A destination unit that no later transfer and no slack write of its own or a later row writes holds, after the transfers of a
legal command, what its source unit held before them. -/
theorem transfers_deliver_unit (hl : legal c cmd ctx m step = true)
    (h : (transfersOf c.width cmd ctx step draws cmd.dstH.toNat).foldlM (applyTransfer c.width) m = some m') {j i : Nat}
    (hj : j < cmd.dstH.toNat) (hi : i < cmd.dstW.toNat)
    (hlater : ∀ j' < cmd.dstH.toNat, ∀ i' < cmd.dstW.toNat, (j < j' ∨ j = j' ∧ i < i') →
      dstUnitAddr c.width cmd ctx j' i' ≠ dstUnitAddr c.width cmd ctx j i)
    (hslack : slackPermitted c.width cmd = true → ∀ j' < cmd.dstH.toNat, j ≤ j' →
      slackAddr c.width cmd ctx j' ≠ dstUnitAddr c.width cmd ctx j i) :
    memRead m' (dstUnitAddr c.width cmd ctx j i) (unitSize c.width) =
      memRead m (srcUnitAddr c.width cmd step j i) (unitSize c.width) := by
  obtain ⟨l1, l2, hsplit, hl2⟩ := transfersOf_split_copy cmd ctx step draws hj hi (w := c.width)
  rw [hsplit] at h
  refine transfers_last_copy h (fun t ht a ha => source_not_written hl hj hi (draws := draws) (by simp [hsplit, ht]) ha)
    fun t ht a ha hwrites => ?_
  obtain ⟨j', i', hj', hi', hord, rfl⟩ | ⟨j', x, hjj', hj', hp, -, rfl⟩ := hl2 t ht
  · exact hlater j' hj' i' hi' hord (dstUnits_disjoint hl ha hwrites)
  · obtain ⟨hw, -, -⟩ := slackPermitted_iff.1 hp
    obtain rfl := List.mem_singleton.1 hwrites
    refine hslack hp j' hj' hjj' ?_
    simpa [unitBytes, hw, unitSize] using ha

end

/-- A blit operation that copies, with distinct destination units and no slack, delivers every unit. -/
theorem runBlit_delivers {key : BitVec 3} {oe : Bool} {s t : State} {step : Word} (hruns : BlitRuns key oe s step)
    (hdistinct : UnitsDistinct s.cfg.width (commandFor key oe s) (snapshotCtx s.regs))
    (hp : slackPermitted s.cfg.width (commandFor key oe s) ≠ true) (h : runBlit key oe s = .next t) {j i : Nat}
    (hj : j < s.regs.cmd.dstH.toNat) (hi : i < s.regs.cmd.dstW.toNat) :
    unitAt t (dstUnitAddr s.cfg.width (commandFor key oe s) (snapshotCtx s.regs) j i) =
      unitAt s (srcUnitAddr s.cfg.width (commandFor key oe s) step j i) := by
  obtain ⟨m, hr, hm⟩ := runBlit_of_blitRuns hruns
  obtain rfl := Host.Outcome.next.inj (hr.symm.trans h)
  refine transfers_deliver_unit hruns.vouched hm hj hi (fun j' hj' i' hi' hord he => ?_) fun hp' => absurd hp' hp
  obtain ⟨rfl, rfl⟩ := hdistinct j' hj' i' hi' j hj i hi he
  omega

/-! The mirror round trip (R102). -/

section
variable (w : PixelWidth) (ctx : Ctx) (s : State)

/-- BLT.H writes processed column `i` at the `i`-th column from the right (R102, R146). -/
theorem dstUnitAddr_bltH (oe : Bool) (j i : Nat) :
    dstUnitAddr w (commandFor 1#3 oe s) ctx j i =
      dstAddr w ctx (s.regs.cmd.dstY + BitVec.ofNat 32 j) (s.regs.cmd.dstX + s.regs.cmd.dstW - 1 - BitVec.ofNat 32 i) := by
  rw [dstUnitAddr, dstRowIndex, dstColIndex]
  simp only [commandFor, mirrorV_flagsWord, mirrorH_flagsWord]
  rfl

/-- BLT.H reads processed column `i` at the `i`-th column from the left (R101, R146). -/
theorem srcUnitAddr_bltH (oe : Bool) (step : Word) (j i : Nat) :
    srcUnitAddr w (commandFor 1#3 oe s) step j i =
      srcAddr w (commandFor 1#3 oe s) (s.regs.cmd.srcY + BitVec.ofNat 32 j) (s.regs.cmd.srcX + BitVec.ofNat 32 i) := by
  rw [srcUnitAddr, rowIndex, colIndex]
  simp only [commandFor, scaled_flagsWord]
  rfl

end

/-- Without OVERWRITE_EDGES BLT.H is permitted no slack (R108). -/
theorem slackPermitted_bltH (w : PixelWidth) (s : State) : slackPermitted w (commandFor 1#3 false s) ≠ true := by
  rw [ne_eq, slackPermitted_iff, commandFor, flagsOE_flagsWord]
  exact fun ⟨_, hoe, _⟩ => Bool.false_ne_true hoe

/-- The `i`-th column from the right edge, counted from the left edge. -/
theorem column_from_right (x width : Word) {i : Nat} (hi : i < width.toNat) :
    x + width - 1 - BitVec.ofNat 32 i = x + BitVec.ofNat 32 (width.toNat - 1 - i) := by
  have hwidth : width = BitVec.ofNat 32 (width.toNat - 1 - i) + BitVec.ofNat 32 i + 1 := by
    have hsum : width.toNat - 1 - i + i + 1 = width.toNat := by omega
    have h : BitVec.ofNat 32 (width.toNat - 1 - i + i + 1) = width := by rw [hsum, BitVec.ofNat_toNat, BitVec.setWidth_eq]
    rw [ofNat_succ, BitVec.ofNat_add] at h
    exact h.symm
  conv_lhs => rw [hwidth]
  ring

/-- BLT.H without slack writes source column `i` of a row at the `i`-th column from the right of the rectangle. -/
theorem bltH_mirrors_row {s t : State} {w : PixelWidth} {step : Word} (hw : s.cfg.width = w)
    (hruns : BlitRuns 1#3 false s step) (hdistinct : UnitsDistinct w (commandFor 1#3 false s) (snapshotCtx s.regs))
    (h : exec (.bltH false) s = .next t) {j i : Nat} (hj : j < s.regs.cmd.dstH.toNat) (hi : i < s.regs.cmd.dstW.toNat) :
    unitAt t (dstAddr w (snapshotCtx s.regs) (s.regs.cmd.dstY + BitVec.ofNat 32 j)
        (s.regs.cmd.dstX + BitVec.ofNat 32 (s.regs.cmd.dstW.toNat - 1 - i))) =
      unitAt s (srcAddr w (commandFor 1#3 false s) (s.regs.cmd.srcY + BitVec.ofNat 32 j)
        (s.regs.cmd.srcX + BitVec.ofNat 32 i)) := by
  subst hw
  have hrun : runBlit 1#3 false s = .next t := (exec_blitInstr 1#3 false s).symm.trans h
  have hunit := runBlit_delivers hruns hdistinct (slackPermitted_bltH _ s) hrun hj hi
  rwa [dstUnitAddr_bltH, srcUnitAddr_bltH, column_from_right _ _ hi] at hunit

/-- A command whose source is the framebuffer of a context reads where that context draws (R52, R53). -/
theorem srcAddr_eq_dstAddr {cmd : Cmd} {ctx : Ctx} (hbase : cmd.srcBase = ctx.fbBase) (hstride : cmd.srcStride = ctx.fbPitch)
    (w : PixelWidth) (r c : Word) : srcAddr w cmd r c = dstAddr w ctx r c := by
  rw [srcAddr, dstAddr, hbase, hstride]

theorem unitAt_congr {s t : State} (hmem : s.mem = t.mem) (hcfg : s.cfg = t.cfg) (a : Word) : unitAt s a = unitAt t a := by
  rw [unitAt, unitAt, hmem, hcfg]

/-- A blit operation keeps the parameters. -/
theorem runBlit_cfg {key : BitVec 3} {oe : Bool} {s t : State} (h : runBlit key oe s = .next t) : t.cfg = s.cfg := by
  obtain ⟨used, -, ht⟩ := runBlit_next h
  rw [ht]

/-- Settles O43: column `i` goes to the `i`-th column from the right, and the second blit takes it from there to the `i`-th column
from the left. -/
theorem mirrorRoundTrip : Obligations.MirrorRoundTrip := by
  unfold Obligations.MirrorRoundTrip
  intro s1 t1 s2 k1 k2 c1 x1 c2 x2 w hruns1 hdistinct1 hexec1 hmem hcfg hbase hstride hx hy hwidth hheight hruns2 hdistinct2
  obtain ⟨t2, hexec2, -⟩ := legalBlitCompletes 1#3 false s2 k2 hruns2
  refine ⟨t2, hexec2, fun j hj i hi => ?_⟩
  have hcfg1 : t1.cfg = s1.cfg := runBlit_cfg ((exec_blitInstr 1#3 false s1).symm.trans hexec1)
  have hi' : c1.dstW.toNat - 1 - i < c2.dstW.toNat := by rw [hwidth]; omega
  have hback : c2.dstW.toNat - 1 - (c1.dstW.toNat - 1 - i) = i := by rw [hwidth]; omega
  have hfirst := bltH_mirrors_row rfl hruns1 hdistinct1 hexec1 hj hi
  have hsecond := bltH_mirrors_row (congrArg Config.width hcfg) hruns2 hdistinct2 hexec2 (hheight ▸ hj) hi'
  calc unitAt t2 (dstAddr w x2 (c2.dstY + BitVec.ofNat 32 j) (c2.dstX + BitVec.ofNat 32 i))
      = unitAt t2 (dstAddr w x2 (c2.dstY + BitVec.ofNat 32 j)
          (c2.dstX + BitVec.ofNat 32 (c2.dstW.toNat - 1 - (c1.dstW.toNat - 1 - i)))) := by rw [hback]
    _ = unitAt s2 (srcAddr w c2 (c2.srcY + BitVec.ofNat 32 j) (c2.srcX + BitVec.ofNat 32 (c1.dstW.toNat - 1 - i))) := hsecond
    _ = unitAt t1 (dstAddr w x1 (c1.dstY + BitVec.ofNat 32 j) (c1.dstX + BitVec.ofNat 32 (c1.dstW.toNat - 1 - i))) := by
      rw [unitAt_congr hmem (hcfg.trans hcfg1.symm), srcAddr_eq_dstAddr hbase hstride, hx, hy]
    _ = unitAt s1 (srcAddr w c1 (c1.srcY + BitVec.ofNat 32 j) (c1.srcX + BitVec.ofNat 32 i)) := hfirst

/-! The wide path (R103, R107): a row copied in pieces, whatever their size, is the row copied at once. -/

/-- `n` bytes copied from `s` to `d`, read before any is written; none if a byte read holds no value. -/
def copyBytes (n : Nat) (s d : Word) (m : Memory) : Option Memory := (memRead m s n).map (memWrite m d)

/-- `n` pieces of `c` bytes each copied from `s` to `d`, one after another. -/
def copyPieces (c : Nat) (s d : Word) (n : Nat) (m : Memory) : Option Memory :=
  (List.range n).foldlM (fun m i => copyBytes c (s + BitVec.ofNat 32 (c * i)) (d + BitVec.ofNat 32 (c * i)) m) m

theorem copyPieces_succ (c : Nat) (s d : Word) (n : Nat) (m : Memory) :
    copyPieces c s d (n + 1) m =
      (copyPieces c s d n m).bind (copyBytes c (s + BitVec.ofNat 32 (c * n)) (d + BitVec.ofNat 32 (c * n))) := by
  rw [copyPieces, List.range_succ, foldlM_snoc]
  rfl

theorem add_ofNat_add (a : Word) (p q : Nat) :
    a + BitVec.ofNat 32 (p + q) = a + BitVec.ofNat 32 p + BitVec.ofNat 32 q := by
  rw [BitVec.ofNat_add, add_assoc]

theorem memRead_add (m : Memory) (a : Word) (p q : Nat) :
    memRead m a (p + q) =
      (memRead m a p).bind fun bs => (memRead m (a + BitVec.ofNat 32 p) q).map (bs ++ ·) := by
  induction p generalizing a with
  | zero => simp [memRead]
  | succ p ih =>
    rw [Nat.succ_add, addr_succ]
    simp only [memRead, ih]
    cases readByte m a with
    | none => rfl
    | some b =>
      cases memRead m (a + 1#32) p with
      | none => rfl
      | some bs => cases memRead m (a + 1#32 + BitVec.ofNat 32 p) q <;> rfl

theorem memWrite_append (m : Memory) (a : Word) (bs cs : List Byte) :
    memWrite m a (bs ++ cs) = memWrite (memWrite m a bs) (a + BitVec.ofNat 32 bs.length) cs := by
  induction bs generalizing m a with
  | nil => simp [memWrite]
  | cons b bs ih => rw [List.cons_append, memWrite, memWrite, ih, List.length_cons, addr_succ a bs.length]

/-- A copy in two pieces is one copy, where the first piece writes nothing the second one reads. -/
theorem copyBytes_add (m : Memory) (s d : Word) (p q : Nat)
    (hdisjoint : ∀ k < q, ∀ l < p, s + BitVec.ofNat 32 (p + k) ≠ d + BitVec.ofNat 32 l) :
    copyBytes (p + q) s d m =
      (copyBytes p s d m).bind (copyBytes q (s + BitVec.ofNat 32 p) (d + BitVec.ofNat 32 p)) := by
  unfold copyBytes
  rw [memRead_add]
  cases hp : memRead m s p with
  | none => rfl
  | some bs =>
    have hlen : bs.length = p := memRead_length hp
    have hread : memRead (memWrite m d bs) (s + BitVec.ofNat 32 p) q = memRead m (s + BitVec.ofNat 32 p) q :=
      memRead_congr fun k hk => readByte_memWrite_other m d _ bs fun l hl => by
        rw [← add_ofNat_add]
        exact hdisjoint k hk l (hlen ▸ hl)
    simp only [Option.map_some, Option.bind_some, hread, Option.map_map]
    exact congrArg (Option.map · _) (funext fun cs => by rw [Function.comp_apply, memWrite_append, hlen])

/-- Pieces copied one after another are the whole copied at once, where source and destination are disjoint. -/
theorem copyPieces_eq (c : Nat) (s d : Word) (n : Nat) (m : Memory)
    (hdisjoint : ∀ k < c * n, ∀ l < c * n, s + BitVec.ofNat 32 k ≠ d + BitVec.ofNat 32 l) :
    copyPieces c s d n m = copyBytes (c * n) s d m := by
  induction n with
  | zero => rfl
  | succ n ih =>
    rw [Nat.mul_succ] at hdisjoint ⊢
    rw [copyPieces_succ, ih fun k hk l hl => hdisjoint k (by omega) l (by omega),
      copyBytes_add m s d _ _ fun k hk l hl => hdisjoint _ (by omega) l (by omega)]

/-- The wide path copies a row in pieces of four bytes (R103). -/
theorem wideRow_eq_copyPieces (r : Run) (m : Memory) :
    wideRow r m = copyPieces 4 r.sp r.dp (r.cmd.dstW.toNat / 2) m := by
  have htransfer (m : Memory) (n : Nat) : wideTransfer r m n =
      copyBytes 4 (r.sp + BitVec.ofNat 32 (4 * n)) (r.dp + BitVec.ofNat 32 (4 * n)) m := by
    unfold wideTransfer copyBytes
    rw [BitVec.ofNat_mul]
    cases memRead m (r.sp + 4 * BitVec.ofNat 32 n) 4 <;> rfl
  unfold wideRow copyPieces
  exact congrArg (fun f => List.foldlM f m _) (funext fun m => funext (htransfer m))

/-- A unit transfer of StraightCopy copies the unit of its column (R101). -/
theorem straightUnit_eq_copyBytes (w : PixelWidth) (r : Run) (i : Nat) (m : Memory) :
    straightUnit w { r with i := BitVec.ofNat 32 i } m =
      (copyBytes (unitSize w) (r.sp + BitVec.ofNat 32 (unitSize w * i)) (r.dp + BitVec.ofNat 32 (unitSize w * i)) m).map
        fun m' => ({ r with i := BitVec.ofNat 32 i }, m') := by
  have hcol : colOffset w { r with i := BitVec.ofNat 32 i } = BitVec.ofNat 32 (unitSize w * i) := by
    rw [Nat.mul_comm, BitVec.ofNat_mul]
    rfl
  unfold straightUnit copyBytes
  rw [hcol]
  cases memRead m (r.sp + BitVec.ofNat 32 (unitSize w * i)) (unitSize w) <;> rfl

/-- The reference loop of StraightCopy copies a row in pieces of one unit, and of the registers it moves the column only (R101). -/
theorem columnLoop_straightUnit (w : PixelWidth) (r : Run) (n : Nat) (m : Memory) :
    columnLoop (straightUnit w) n (r, m) =
      (copyPieces (unitSize w) r.sp r.dp n m).map fun m' => ({ r with i := lastColumn r.i n }, m') := by
  induction n with
  | zero => rfl
  | succ n ih =>
    rw [columnLoop_succ, ih, copyPieces_succ]
    cases copyPieces (unitSize w) r.sp r.dp n m with
    | none => rfl
    | some m' => exact straightUnit_eq_copyBytes w r n m'

/-- The memory the reference loop leaves. -/
theorem columnLoop_straightUnit_memory (w : PixelWidth) (r : Run) (n : Nat) (m : Memory) :
    (columnLoop (straightUnit w) n (r, m)).map Prod.snd = copyPieces (unitSize w) r.sp r.dp n m := by
  rw [columnLoop_straightUnit, Option.map_map]
  exact congrFun Option.map_id _

/-- Settles O52: the gate asks for an even number of units, so both paths copy the whole row, in pieces of four bytes and of two. -/
theorem widePathMatchesReference : Obligations.WidePathMatchesReference := by
  unfold Obligations.WidePathMatchesReference
  intro r m hgate hdisjoint
  have hfour : r.cmd.dstW.toNat % 4 = 0 := by
    simp only [wideGate, Bool.and_eq_true, beq_iff_eq] at hgate
    obtain ⟨⟨⟨-, hfour⟩, -⟩, -⟩ := hgate
    exact hfour
  have hbytes : 4 * (r.cmd.dstW.toNat / 2) = 2 * r.cmd.dstW.toNat := by omega
  calc wideRow r m
      = copyPieces 4 r.sp r.dp (r.cmd.dstW.toNat / 2) m := wideRow_eq_copyPieces r m
    _ = copyBytes (2 * r.cmd.dstW.toNat) r.sp r.dp m := by rw [copyPieces_eq _ _ _ _ _ (hbytes ▸ hdisjoint), hbytes]
    _ = copyPieces 2 r.sp r.dp r.cmd.dstW.toNat m := (copyPieces_eq _ _ _ _ _ hdisjoint).symm
    _ = (columnLoop (straightUnit .w16) r.cmd.dstW.toNat (r, m)).map Prod.snd := (columnLoop_straightUnit_memory .w16 r _ m).symm

end Sys2Proof.Machine
end

section
/-! PROOFS. The fixed-point scaler (42_fixed_point_scaler.md): the reciprocal and its refusal (R122, R123), the accumulators and the
wrap mask (R125, R126, R128), the scale identity (R132), and OVERWRITE_EDGES under scaling (R134). -/

namespace Sys2Proof.Machine

/-! The reciprocal (R122, R123). -/

theorem recipStep_eq_none {s : Word} (h : s.toNat < 2 ∨ 2 ^ 31 ≤ s.toNat) : recipStep s = none := if_pos h

theorem recipStep_eq_some {s : Word} (hlow : 2 ≤ s.toNat) (hhigh : s.toNat < 2 ^ 31) :
    recipStep s = some (BitVec.ofNat 32 (2 ^ 32 / s.toNat)) :=
  if_neg (not_or.2 ⟨hlow.not_gt, hhigh.not_ge⟩)

/-- The quotient by a SCALE of at least 2 fits the 32 bits of the step register. -/
theorem toNat_recipStep {s : Word} (hlow : 2 ≤ s.toNat) : (BitVec.ofNat 32 (2 ^ 32 / s.toNat)).toNat = 2 ^ 32 / s.toNat :=
  Nat.mod_eq_of_lt (Nat.div_lt_self (by decide) hlow)

/-- Settles O57: the quotient is stored whole for a SCALE in range, and no other SCALE has one. -/
theorem recipStepIsFloor : Obligations.RecipStepIsFloor := by
  unfold Obligations.RecipStepIsFloor
  exact fun s => ⟨fun ⟨hlow, hhigh⟩ => ⟨_, recipStep_eq_some hlow hhigh, toNat_recipStep hlow⟩, recipStep_eq_none⟩

/-! The refusal of a SCALE out of range (R123, R143 step 2, R144 (b)). -/

theorem scaled_commandFor (key : BitVec 3) (oe : Bool) (s : State) : scaled (commandFor key oe s).flags = key.getLsbD 2 :=
  scaled_flagsWord key oe

/-- A scaled operation divides by the SCALE register (R143 step 2). -/
theorem stepOf_scaled {key : BitVec 3} (h : key.getLsbD 2 = true) (oe : Bool) (s : State) :
    stepOf (commandFor key oe s) = recipStep s.regs.cmd.scale :=
  if_pos ((scaled_commandFor key oe s).trans h)

section
variable {c : Config} {cmd : Cmd} {ctx : Ctx} (m : Memory) (draws : Nat → Option Byte)

/-- An engine that skips the division of a suppressed blit does nothing at all for it (R143 step 1). -/
theorem blit_of_division_skipped (h : ctx.suppressDraw = true ∧ c.divWhenSuppressed = false) :
    blit c cmd ctx m draws = .ok (m, 0) := if_pos h

/-- Where the division is reached and has no quotient, `Blit` refuses, whatever SUPPRESS_DRAW and the area are (R144 (b)). -/
theorem blit_of_stepOf_none (h : ¬(ctx.suppressDraw = true ∧ c.divWhenSuppressed = false)) (hstep : stepOf cmd = none) :
    blit c cmd ctx m draws = .error .scaleOutOfRange := by
  rw [blit, if_neg h, hstep]

end

/-- Settles O24: the operation reaches the division, and SCALE has no reciprocal. -/
theorem scaleOutOfRangeIsRefused : Obligations.ScaleOutOfRangeIsRefused := by
  unfold Obligations.ScaleOutOfRangeIsRefused
  rintro key oe s ⟨hkey, hreached, hrange⟩
  have hdivides : ¬((snapshotCtx s.regs).suppressDraw = true ∧ s.cfg.divWhenSuppressed = false) := by
    rw [not_and_or, Bool.not_eq_true, Bool.not_eq_false]
    exact hreached
  have hstep : stepOf (commandFor key oe s) = none := (stepOf_scaled hkey oe s).trans (recipStep_eq_none hrange)
  rw [exec_blitInstr, runBlit, blit_of_stepOf_none _ _ hdivides hstep]

/-! The accumulators and the wrap mask (R125, R126, R128). -/

/-- The closed form of an accumulator (R127). -/
theorem accumulator_eq {f : Nat → Word} {a step : Word} (h0 : f 0 = a) (hadd : ∀ n, f (n + 1) = f n + step) (n : Nat) :
    f n = a + BitVec.ofNat 32 n * step := by
  induction n with
  | zero => simp [h0]
  | succ n ih =>
    have hone : (1#32 : Word) = 1 := rfl
    rw [hadd, ih, ofNat_succ, hone]
    ring

/-- Settles O58: the closed forms that `srcRow` and `srcCol` are defined by are those of the accumulators. -/
theorem accumulatorsGiveCoordinates : Obligations.AccumulatorsGiveCoordinates := by
  unfold Obligations.AccumulatorsGiveCoordinates
  intro cmd step v u hv0 hv hu0 hu
  refine ⟨fun j => ?_, fun i => ?_⟩
  · rw [accumulator_eq hv0 hv]
    rfl
  · rw [accumulator_eq hu0 hu]
    rfl

theorem toNat_sub_one {d : Word} (h : 0 < d.toNat) : (d - 1).toNat = d.toNat - 1 :=
  BitVec.toNat_sub_of_le (BitVec.le_def.2 h)

/-- The mask of a power of two is the remainder. -/
theorem toNat_wrapMask_two_pow (x : Word) {d : Word} {k : Nat} (hd : d.toNat = 2 ^ k) :
    (wrapMask x d).toNat = x.toNat % 2 ^ k := by
  rw [wrapMask, BitVec.toNat_and, toNat_sub_one (hd ▸ Nat.two_pow_pos k), hd, Nat.and_two_pow_sub_one_eq_mod]

theorem wrapMask_zero (x : Word) : wrapMask x 0#32 = x := by
  have hones : (0#32 - 1 : Word) = BitVec.allOnes 32 := rfl
  rw [wrapMask, hones, BitVec.and_allOnes]

/-- Settles O59, by the remainder of a power of two and the full mask of 0. -/
theorem wrapMaskIsRemainder : Obligations.WrapMaskIsRemainder := by
  unfold Obligations.WrapMaskIsRemainder
  exact fun x d => ⟨rfl, fun _ _ hd => toNat_wrapMask_two_pow x hd, wrapMask_zero x⟩

/-! Two commands that differ in FLAGS and copy the same units. -/

/-- With other FLAGS `f`, and the reciprocal `step'` in place of `step`, a command copies the same units to the same places, without
slack in either form, and meets the same checks of its registers (LG1 to LG3). -/
structure CopiesAlike (w : PixelWidth) (cmd : Cmd) (f step' step : Word) : Prop where
  mirrorH   : mirrorH f = mirrorH cmd.flags
  mirrorV   : mirrorV f = mirrorV cmd.flags
  noSlack'  : slackPermitted w { cmd with flags := f } = false
  noSlack   : slackPermitted w cmd = false
  source    : ∀ j < cmd.dstH.toNat, ∀ i < cmd.dstW.toNat,
                srcUnitAddr w { cmd with flags := f } step' j i = srcUnitAddr w cmd step j i
  registers : (legalScale { cmd with flags := f } && legalDimensions { cmd with flags := f } &&
                legalRange { cmd with flags := f }) = (legalScale cmd && legalDimensions cmd && legalRange cmd)

namespace CopiesAlike

variable {cmd : Cmd} {f step' step : Word} (ctx : Ctx) (draws : Nat → Option Byte)

section
variable {w : PixelWidth} (h : CopiesAlike w cmd f step' step)
include h

theorem dstUnitAddr_eq (j i : Nat) : dstUnitAddr w { cmd with flags := f } ctx j i = dstUnitAddr w cmd ctx j i := by
  simp only [dstUnitAddr, dstRowIndex, dstColIndex, h.mirrorH, h.mirrorV]

theorem transfersOf_eq :
    transfersOf w { cmd with flags := f } ctx step' draws cmd.dstH.toNat = transfersOf w cmd ctx step draws cmd.dstH.toNat := by
  refine List.flatMap_congr fun j hj => congrArg₂ (· ++ ·) (List.map_congr_left fun i hi => ?_) ?_
  · rw [h.source j (List.mem_range.1 hj) i (List.mem_range.1 hi), h.dstUnitAddr_eq]
  · simp [rowSlack, h.noSlack, h.noSlack']

theorem readSet_eq : readSet w { cmd with flags := f } step' = readSet w cmd step := by
  refine congrArg₂ (· ++ ·) (List.flatMap_congr fun j hj => List.flatMap_congr fun i hi => ?_) ?_
  · rw [h.source j (List.mem_range.1 hj) i (List.mem_range.1 hi)]
  · simp [slackReadBytes, h.noSlack, h.noSlack']

theorem writeSet_eq : writeSet w { cmd with flags := f } ctx = writeSet w cmd ctx := by
  refine congrArg₂ (· ++ ·) (List.flatMap_congr fun j _ => List.flatMap_congr fun i _ => ?_) ?_
  · rw [h.dstUnitAddr_eq]
  · simp [slackBytes, h.noSlack, h.noSlack']

theorem runKernel_eq (m : Memory) :
    runKernel (table (flagsKey f)) w draws (startRun w { cmd with flags := f } ctx step') m =
      runKernel (table (flagsKey cmd.flags)) w draws (startRun w cmd ctx step) m := by
  by_cases hz : cmd.dstW = 0 ∨ cmd.dstH = 0
  · exact (if_pos hz).trans (if_pos hz).symm
  · obtain ⟨hw, hh⟩ := not_or.1 hz
    rw [Machine.runKernel_eq w cmd ctx step draws hw hh, ← h.transfersOf_eq]
    exact Machine.runKernel_eq w { cmd with flags := f } ctx step' draws hw hh m

end

variable {c : Config} (h : CopiesAlike c.width cmd f step' step)
include h

theorem legal_eq (m : Memory) : legal c { cmd with flags := f } ctx m step' = legal c cmd ctx m step := by
  simp only [legal, legalDisjoint, legalAdmitted, h.registers, h.readSet_eq, h.writeSet_eq]
  rfl

/-- Commands that copy alike, each with its reciprocal, are one blit, refusals included. -/
theorem blit_eq (hstep' : stepOf { cmd with flags := f } = some step') (hstep : stepOf cmd = some step) (m : Memory) :
    blit c { cmd with flags := f } ctx m draws = blit c cmd ctx m draws := by
  unfold blit
  simp only [hstep', hstep, h.legal_eq, h.runKernel_eq, slackRows, h.noSlack, h.noSlack']

end CopiesAlike

/-- Blit operations whose commands are one blit are one operation. -/
theorem exec_blitInstr_congr {key key' : BitVec 3} {oe oe' : Bool} {s : State}
    (h : blit s.cfg (commandFor key oe s) (snapshotCtx s.regs) s.mem (slackDraws s) =
      blit s.cfg (commandFor key' oe' s) (snapshotCtx s.regs) s.mem (slackDraws s)) :
    exec (blitInstr key oe) s = exec (blitInstr key' oe') s := by
  rw [exec_blitInstr, exec_blitInstr, runBlit, runBlit, h]

/-! OVERWRITE_EDGES under scaling (R134). -/

/-- A scaled command copies alike with and without OVERWRITE_EDGES: only the slack, which it is not permitted, depends on it. -/
theorem copiesAlike_without_edges {key : BitVec 3} (hkey : key.getLsbD 2 = true) (s : State) (w : PixelWidth) (step : Word) :
    CopiesAlike w (commandFor key false s) (flagsWord key true) step step where
  mirrorH := by simp [commandFor, mirrorH_flagsWord]
  mirrorV := by simp [commandFor, mirrorV_flagsWord]
  noSlack' := by simp [slackPermitted, scaled_flagsWord, hkey]
  noSlack := by simp [slackPermitted, scaled_commandFor, hkey]
  source j _ i _ := by
    simp only [srcUnitAddr, rowIndex, colIndex, scaled_flagsWord, scaled_commandFor]
    rfl
  registers := by simp [legalScale, legalDimensions, legalRange, scaled_flagsWord, scaled_commandFor]

/-- Settles O41: with its reciprocal a scaled command copies alike with and without OVERWRITE_EDGES, and without one `Blit` answers
before it reads any other bit of FLAGS. -/
theorem scaledBlitIgnoresOverwriteEdges : Obligations.ScaledBlitIgnoresOverwriteEdges := by
  unfold Obligations.ScaledBlitIgnoresOverwriteEdges
  intro key s hkey
  have hstep (oe : Bool) := stepOf_scaled hkey oe s
  apply exec_blitInstr_congr
  by_cases hskip : (snapshotCtx s.regs).suppressDraw = true ∧ s.cfg.divWhenSuppressed = false
  · rw [blit_of_division_skipped _ _ hskip, blit_of_division_skipped _ _ hskip]
  cases hrecip : recipStep s.regs.cmd.scale with
  | none =>
    rw [blit_of_stepOf_none _ _ hskip ((hstep true).trans hrecip), blit_of_stepOf_none _ _ hskip ((hstep false).trans hrecip)]
  | some step =>
    exact (copiesAlike_without_edges hkey s s.cfg.width step).blit_eq _ _ ((hstep true).trans hrecip)
      ((hstep false).trans hrecip) _

/-! The scale identity (R132). -/

/-- With SCALED set, a dispatch key selects a scaled kernel (R72). -/
theorem getLsbD_two_or_four (key : BitVec 3) : (key ||| 4#3).getLsbD 2 = true := by simp

/-- A dimension that R132 admits is one that LG2 admits. -/
theorem isPowerOfTwo_of_le {d : Word} (h : ∃ k ≤ 16, d.toNat = 2 ^ k) : isPowerOfTwo d = true := by
  obtain ⟨k, hk, hd⟩ := h
  exact List.any_eq_true.2 ⟨k, List.mem_range.2 (by omega), beq_iff_eq.2 hd⟩

/-- `n` steps of 1.0 are `n` whole units. -/
theorem toFixed_add_steps_of_one (x : Word) (n : Nat) :
    toFixed x + BitVec.ofNat 32 n * 0x10000#32 = toFixed (x + BitVec.ofNat 32 n) := by
  have hone : BitVec.twoPow 32 16 = 0x10000#32 := rfl
  simp only [toFixed, BitVec.shiftLeft_eq_mul_twoPow, hone]
  ring

/-- A whole index below `2^16` is kept in 16.16 (R75). -/
theorem toIndex_toFixed {x : Word} (h : x.toNat < 2 ^ 16) : toIndex (toFixed x) = x := by
  apply BitVec.eq_of_toNat_eq
  rw [toIndex, toFixed, BitVec.toNat_ushiftRight, BitVec.toNat_shiftLeft, Nat.shiftLeft_eq, Nat.shiftRight_eq_div_pow]
  omega

theorem wrapMask_of_lt {x d : Word} {k : Nat} (hd : d.toNat = 2 ^ k) (h : x.toNat < d.toNat) : wrapMask x d = x := by
  apply BitVec.eq_of_toNat_eq
  rw [toNat_wrapMask_two_pow x hd, Nat.mod_eq_of_lt (hd ▸ h)]

/-- With `step` = 1.0 and a coordinate inside the bitmap the scaled coordinate is the unscaled one. -/
theorem wrapMask_toIndex_at_scale_one {x d : Word} {n : Nat} (hd : ∃ k ≤ 16, d.toNat = 2 ^ k) (h : x.toNat + n < d.toNat) :
    wrapMask (toIndex (toFixed x + BitVec.ofNat 32 n * 0x10000#32)) d = x + BitVec.ofNat 32 n := by
  obtain ⟨k, hk, hd⟩ := hd
  have hbound : d.toNat ≤ 2 ^ 16 := hd ▸ Nat.pow_le_pow_right (by decide) hk
  have hsum : (x + BitVec.ofNat 32 n).toNat < d.toNat := by
    rw [BitVec.toNat_add, BitVec.toNat_ofNat]
    omega
  rw [toFixed_add_steps_of_one, toIndex_toFixed (hsum.trans_le hbound), wrapMask_of_lt hd hsum]

/-- At SCALE = 1.0 the scaled form of an operation copies as the unscaled one without OVERWRITE_EDGES does. -/
theorem copiesAlike_at_scale_one {key : BitVec 3} {s : State} (hkey : key.getLsbD 2 = false) (h : AtScaleOne s) (w : PixelWidth) :
    CopiesAlike w (commandFor key false s) (flagsWord (key ||| 4#3) false) 0x10000#32 0 where
  mirrorH := by simp [commandFor, mirrorH_flagsWord]
  mirrorV := by simp [commandFor, mirrorV_flagsWord]
  noSlack' := by simp [slackPermitted, flagsOE_flagsWord]
  noSlack := by simp [slackPermitted, commandFor, flagsOE_flagsWord]
  source j hj i hi := by
    have hrow : srcRow (commandFor key false s) 0x10000#32 j = s.regs.cmd.srcY + BitVec.ofNat 32 j :=
      wrapMask_toIndex_at_scale_one h.height ((Nat.add_lt_add_left hj _).trans_le h.down)
    have hcol : srcCol (commandFor key false s) 0x10000#32 i = s.regs.cmd.srcX + BitVec.ofNat 32 i :=
      wrapMask_toIndex_at_scale_one h.width ((Nat.add_lt_add_left hi _).trans_le h.across)
    simp only [srcUnitAddr, rowIndex, colIndex, scaled_flagsWord, scaled_commandFor, getLsbD_two_or_four, hkey]
    exact congrArg₂ (srcAddr w _) hrow hcol
  registers := by
    simp [legalScale, legalDimensions, legalRange, commandFor, snapshotCmd, scaled_flagsWord, h.scale, h.across, h.down,
      isPowerOfTwo_of_le h.width, isPowerOfTwo_of_le h.height]

/-- Settles O42: the reciprocal of 1.0 is 1.0, with which the scaled form copies as the unscaled one does. -/
theorem scaleIdentity : Obligations.ScaleIdentity := by
  unfold Obligations.ScaleIdentity
  intro key s hkey h
  have hstep : stepOf (commandFor (key ||| 4#3) false s) = some 0x10000#32 := by
    rw [stepOf_scaled (getLsbD_two_or_four key), h.scale]
    exact recipStep_eq_some (by decide) (by decide)
  apply exec_blitInstr_congr
  exact (copiesAlike_at_scale_one hkey h s.cfg.width).blit_eq _ _ hstep
    (stepOf_unscaled ((scaled_commandFor key false s).trans hkey)) _

end Sys2Proof.Machine
end

section
/-! PROOFS. Dispatch (43_dispatch.md): the orientation (R142), the exits of `Blit` that change nothing (R144), the closed form of all
eight operations (R153) with each operation's effect and corner cases (R145 to R152), and equal sources giving equal pixels (R154). -/

namespace Sys2Proof.Machine

/-! The orientation (R142). -/

/-- The row stride is the pitch, or its negation when V = 1. -/
theorem orient_stride (w : PixelWidth) (cmd : Cmd) (ctx : Ctx) :
    (orient w cmd ctx).2 = if mirrorV cmd.flags then 0 - ctx.fbPitch else ctx.fbPitch := by
  rw [orient]
  split <;> rfl

/-- The row pointer, advanced once for each row, is the address of the row's first column. -/
theorem orient_pointer_advanced (w : PixelWidth) (cmd : Cmd) (ctx : Ctx) (j : Nat) :
    (orient w cmd ctx).1 + BitVec.ofNat 32 j * (orient w cmd ctx).2 * unitWord w =
      dstAddr w ctx (dstRowIndex cmd j) cmd.dstX := by
  rw [orient, dstRowIndex]
  split <;> (unfold dstAddr; ring)

/-- Settles O60: the stride is read off `orient`, and the pointer's row is that of R153. -/
theorem orientPlacesRows : Obligations.OrientPlacesRows := by
  unfold Obligations.OrientPlacesRows
  exact fun w cmd ctx j => ⟨orient_stride w cmd ctx, orient_pointer_advanced w cmd ctx j⟩

/-! The exits that change nothing (R144 (a), R175, R181). -/

/-- Past the division a suppressed or zero-area `Blit` writes nothing and draws nothing (R143 steps 3 and 4). -/
theorem blit_of_nothing_drawn {c : Config} {cmd : Cmd} {ctx : Ctx} {step : Word} (hstep : stepOf cmd = some step)
    (h : ctx.suppressDraw = true ∨ cmd.dstW = 0 ∨ cmd.dstH = 0) (m : Memory) (draws : Nat → Option Byte) :
    blit c cmd ctx m draws = .ok (m, 0) := by
  unfold blit
  rw [hstep]
  by_cases hsuppress : ctx.suppressDraw = true
  · simp [hsuppress]
  · have hzero : cmd.dstW = 0 ∨ cmd.dstH = 0 := h.resolve_left hsuppress
    simp only [hsuppress, hzero, false_and, Bool.false_eq_true, ↓reduceIte]

/-- An operation that does not refuse its SCALE skips the division or finds its reciprocal (R143 steps 1 and 2). -/
theorem division_of_not_scaleRefused {key : BitVec 3} {s : State} (h : ¬ ScaleRefused key s) (oe : Bool) :
    ((snapshotCtx s.regs).suppressDraw = true ∧ s.cfg.divWhenSuppressed = false) ∨
      ∃ step, stepOf (commandFor key oe s) = some step := by
  refine or_iff_not_imp_left.2 fun hreached => ?_
  cases hkey : key.getLsbD 2 with
  | false => exact ⟨0, stepOf_unscaled ((scaled_commandFor key oe s).trans hkey)⟩
  | true =>
    have hrange : ¬(s.regs.cmd.scale.toNat < 2 ∨ 2 ^ 31 ≤ s.regs.cmd.scale.toNat) := fun hrange => by
      rw [not_and_or, Bool.not_eq_true, Bool.not_eq_false] at hreached
      exact h ⟨hkey, hreached, hrange⟩
    obtain ⟨hlow, hhigh⟩ := not_or.1 hrange
    exact ⟨_, (stepOf_scaled hkey oe s).trans (recipStep_eq_some (not_lt.1 hlow) (not_le.1 hhigh))⟩

/-- An operation that is suppressed or has no area, and does not refuse its SCALE, answers the same state. -/
theorem exec_blitInstr_of_nothing_drawn {key : BitVec 3} {s : State} (hscale : ¬ ScaleRefused key s)
    (h : (snapshotCtx s.regs).suppressDraw = true ∨ s.regs.cmd.dstW = 0#32 ∨ s.regs.cmd.dstH = 0#32) (oe : Bool) :
    exec (blitInstr key oe) s = .next s := by
  have hblit : blit s.cfg (commandFor key oe s) (snapshotCtx s.regs) s.mem (slackDraws s) = .ok (s.mem, 0) := by
    obtain hskip | ⟨step, hstep⟩ := division_of_not_scaleRefused hscale oe
    · exact blit_of_division_skipped _ _ hskip
    · exact blit_of_nothing_drawn hstep h _ _
  rw [exec_blitInstr, runBlit, hblit]
  rfl

/-- Settles O22: SUPPRESS_DRAW is one of the exits with nothing drawn. -/
theorem suppressedBlitChangesNothing : Obligations.SuppressedBlitChangesNothing := by
  unfold Obligations.SuppressedBlitChangesNothing
  exact fun _ oe _ hsuppress hscale => exec_blitInstr_of_nothing_drawn hscale (.inl hsuppress) oe

/-- Settles O23: a zero area is one of the exits with nothing drawn. -/
theorem zeroAreaBlitChangesNothing : Obligations.ZeroAreaBlitChangesNothing := by
  unfold Obligations.ZeroAreaBlitChangesNothing
  exact fun _ oe _ hzero hscale => exec_blitInstr_of_nothing_drawn hscale (.inr hzero) oe

/-! The closed form (R153, R60, R61). -/

/-- Settles O35: the transfers of a legal command deliver every unit that nothing later overwrites, and an operation changes no byte
outside its write set. -/
theorem closedForm : Obligations.ClosedForm := by
  unfold Obligations.ClosedForm
  intro key oe s step cmd ctx w hruns
  obtain ⟨m, hrun, htransfers⟩ := runBlit_of_blitRuns hruns
  refine ⟨_, (exec_blitInstr key oe s).trans hrun, fun j hj i hi hlater hslack => ?_, fun a hnominal hslack => ?_⟩
  · exact transfers_deliver_unit hruns.vouched htransfers hj hi hlater hslack
  · exact runBlit_frame hrun fun ha => (List.mem_append.1 ha).elim hnominal hslack

/-! The effect of one operation (R145 to R152). -/

/-- The nominal rectangle is the bytes of its destination units (R14). -/
theorem mem_nominalBytes {w : PixelWidth} {cmd : Cmd} {ctx : Ctx} {a : Word} :
    a ∈ nominalBytes w cmd ctx ↔
      ∃ j < cmd.dstH.toNat, ∃ i < cmd.dstW.toNat, a ∈ unitBytes w (dstUnitAddr w cmd ctx j i) := by
  simp [nominalBytes, rowsOf, colsOf]

/-- The framebuffer row of an operation's processed row: from the bottom when V = 1. -/
theorem dstRowIndex_commandFor (key : BitVec 3) (oe : Bool) (s : State) (j : Nat) :
    dstRowIndex (commandFor key oe s) j =
      bif key.getLsbD 1 then s.regs.cmd.dstY + s.regs.cmd.dstH - 1 - BitVec.ofNat 32 j
      else s.regs.cmd.dstY + BitVec.ofNat 32 j := by
  have hv : mirrorV (commandFor key oe s).flags = key.getLsbD 1 := mirrorV_flagsWord key oe
  rw [dstRowIndex, hv, cond_eq_ite]
  rfl

/-- The framebuffer column of an operation's processed column: from the right when H = 1. -/
theorem dstColIndex_commandFor (key : BitVec 3) (oe : Bool) (s : State) (i : Nat) :
    dstColIndex (commandFor key oe s) i =
      bif key.getLsbD 0 then s.regs.cmd.dstX + s.regs.cmd.dstW - 1 - BitVec.ofNat 32 i
      else s.regs.cmd.dstX + BitVec.ofNat 32 i := by
  have hh : mirrorH (commandFor key oe s).flags = key.getLsbD 0 := mirrorH_flagsWord key oe
  rw [dstColIndex, hh, cond_eq_ite]
  rfl

/-- Where the bits V and H of a dispatch key place the unit of processed position `(j, i)` (R145 to R152). -/
def placeOf (key : BitVec 3) (s : State) (j i : Nat) : Word :=
  dstAddr s.cfg.width (snapshotCtx s.regs)
    (bif key.getLsbD 1 then s.regs.cmd.dstY + s.regs.cmd.dstH - 1 - BitVec.ofNat 32 j
      else s.regs.cmd.dstY + BitVec.ofNat 32 j)
    (bif key.getLsbD 0 then s.regs.cmd.dstX + s.regs.cmd.dstW - 1 - BitVec.ofNat 32 i
      else s.regs.cmd.dstX + BitVec.ofNat 32 i)

/-- The place a key names is the destination unit of the operation's command (R153). -/
theorem dstUnitAddr_commandFor (key : BitVec 3) (oe : Bool) (s : State) :
    dstUnitAddr s.cfg.width (commandFor key oe s) (snapshotCtx s.regs) = placeOf key s := by
  funext j i
  rw [dstUnitAddr, dstRowIndex_commandFor, dstColIndex_commandFor, placeOf]

/-- The unit that bit S of a dispatch key has read for processed position `(j, i)`: by the scaler or by the offsets (R145 to R152). -/
def sourceOf (key : BitVec 3) (oe : Bool) (s : State) (step : Word) (j i : Nat) : Word :=
  bif key.getLsbD 2 then
    srcAddr s.cfg.width (commandFor key oe s) (srcRow (commandFor key oe s) step j) (srcCol (commandFor key oe s) step i)
  else srcAddr s.cfg.width (commandFor key oe s) (s.regs.cmd.srcY + BitVec.ofNat 32 j) (s.regs.cmd.srcX + BitVec.ofNat 32 i)

/-- The unit a key has read is the source unit of the operation's command (R153). -/
theorem srcUnitAddr_commandFor (key : BitVec 3) (oe : Bool) (s : State) (step : Word) :
    srcUnitAddr s.cfg.width (commandFor key oe s) step = sourceOf key oe s step := by
  funext j i
  rw [srcUnitAddr, rowIndex, colIndex, scaled_commandFor, sourceOf]
  cases key.getLsbD 2 <;> rfl

/-- An operation that copies, with distinct destination units and its slack outside the rectangle, copies every unit its key has read
to the place its key names (R72, R153). -/
theorem exec_blitInstr_copies {key : BitVec 3} {oe : Bool} {s : State} {step : Word} (hruns : BlitRuns key oe s step)
    (hdistinct : UnitsDistinct s.cfg.width (commandFor key oe s) (snapshotCtx s.regs))
    (houtside : SlackOutside s.cfg.width (commandFor key oe s) (snapshotCtx s.regs)) :
    ∃ t, exec (blitInstr key oe) s = .next t ∧
      Copies s t (commandFor key oe s) (placeOf key s) (sourceOf key oe s step)
        (slackBytes s.cfg.width (commandFor key oe s) (snapshotCtx s.regs)) (slackRows s.cfg.width (commandFor key oe s)) := by
  rw [← dstUnitAddr_commandFor key oe, ← srcUnitAddr_commandFor]
  obtain ⟨t, hexec, hdelivered, hframe⟩ := closedForm key oe s step hruns
  obtain ⟨t', hexec', hrest⟩ := legalBlitCompletes key oe s step hruns
  obtain rfl := Host.Outcome.next.inj (hexec'.symm.trans hexec)
  refine ⟨t', hexec, fun j hj i hi => ?_, fun a hrect hslack => hframe a ?_ hslack, hrest⟩
  · refine hdelivered j hj i hi (fun j' hj' i' hi' hlater he => ?_) fun hp j' hj' _ => (houtside hp j hj i hi j' hj').symm
    obtain ⟨rfl, rfl⟩ := hdistinct j' hj' i' hi' j hj i hi he
    omega
  · rw [mem_nominalBytes]
    exact fun ⟨j, hj, i, hi, ha⟩ => hrect j hj i hi ha

/-- A scaled operation is permitted no slack (R108, R134). -/
theorem slackPermitted_scaled {key : BitVec 3} (hkey : key.getLsbD 2 = true) (w : PixelWidth) (oe : Bool) (s : State) :
    slackPermitted w (commandFor key oe s) = false := by
  simp [slackPermitted, scaled_commandFor, hkey]

/-- The FLAGS word of an operation is its key, with 8 added for OVERWRITE_EDGES (R71, R83). -/
theorem encode_blitInstr_word (key : BitVec 3) (oe : Bool) :
    encode (blitInstr key oe) =
      .cmd (if oe = true then BitVec.ofNat 32 (8 + key.toNat) else BitVec.ofNat 32 key.toNat) := by
  rw [encode_blitInstr]
  revert key oe
  decide

/-! Operations that write the same units (the corner cases of R146 and R147). -/

/-- With other FLAGS `f` an operation reads and writes the same units and slack units: the words agree on SCALED and OVERWRITE_EDGES,
and where they differ in mirroring the rectangle hides it. -/
structure PlacesAlike (w : PixelWidth) (cmd : Cmd) (ctx : Ctx) (f : Word) : Prop where
  scaled : scaled f = scaled cmd.flags
  edges  : flagsOE f = flagsOE cmd.flags
  units  : ∀ j < cmd.dstH.toNat, ∀ i < cmd.dstW.toNat,
             dstUnitAddr w { cmd with flags := f } ctx j i = dstUnitAddr w cmd ctx j i
  slack  : slackPermitted w cmd = true → ∀ j < cmd.dstH.toNat, slackAddr w { cmd with flags := f } ctx j = slackAddr w cmd ctx j

namespace PlacesAlike

variable {cmd : Cmd} {ctx : Ctx} {f : Word}

section
variable {w : PixelWidth} (h : PlacesAlike w cmd ctx f)
include h

theorem slackPermitted_eq : slackPermitted w { cmd with flags := f } = slackPermitted w cmd := by
  rw [slackPermitted, slackPermitted, h.scaled, h.edges]

theorem srcUnitAddr_eq (step : Word) (j i : Nat) :
    srcUnitAddr w { cmd with flags := f } step j i = srcUnitAddr w cmd step j i := by
  rw [srcUnitAddr, srcUnitAddr, rowIndex, rowIndex, colIndex, colIndex, h.scaled]
  rfl

theorem transfersOf_eq (step : Word) (draws : Nat → Option Byte) :
    transfersOf w { cmd with flags := f } ctx step draws cmd.dstH.toNat = transfersOf w cmd ctx step draws cmd.dstH.toNat := by
  refine List.flatMap_congr fun j hj => congrArg₂ (· ++ ·) (List.map_congr_left fun i hi => ?_) ?_
  · rw [h.srcUnitAddr_eq, h.units j (List.mem_range.1 hj) i (List.mem_range.1 hi)]
  · rw [rowSlack, rowSlack, h.slackPermitted_eq]
    split
    · next hp => rw [h.slack hp j (List.mem_range.1 hj)]
    · rfl

theorem readSet_eq (step : Word) : readSet w { cmd with flags := f } step = readSet w cmd step := by
  simp only [readSet, texelBytes, slackReadBytes, h.srcUnitAddr_eq, h.slackPermitted_eq]
  rfl

theorem writeSet_eq : writeSet w { cmd with flags := f } ctx = writeSet w cmd ctx := by
  refine congrArg₂ (· ++ ·) (List.flatMap_congr fun j hj => List.flatMap_congr fun i hi => ?_) ?_
  · rw [h.units j (List.mem_range.1 hj) i (List.mem_range.1 hi)]
  · rw [slackBytes, slackBytes, h.slackPermitted_eq]
    split
    · next hp => exact List.flatMap_congr fun j hj => by rw [h.slack hp j (List.mem_range.1 hj)]
    · rfl

theorem runKernel_eq (step : Word) (draws : Nat → Option Byte) (m : Memory) :
    runKernel (table (flagsKey f)) w draws (startRun w { cmd with flags := f } ctx step) m =
      runKernel (table (flagsKey cmd.flags)) w draws (startRun w cmd ctx step) m := by
  by_cases hz : cmd.dstW = 0 ∨ cmd.dstH = 0
  · exact (if_pos hz).trans (if_pos hz).symm
  · obtain ⟨hw, hh⟩ := not_or.1 hz
    rw [Machine.runKernel_eq w cmd ctx step draws hw hh, ← h.transfersOf_eq]
    exact Machine.runKernel_eq w { cmd with flags := f } ctx step draws hw hh m

end

/-- Commands that place alike are one blit, refusals and slack included. -/
theorem blit_eq {c : Config} (h : PlacesAlike c.width cmd ctx f) (m : Memory) (draws : Nat → Option Byte) :
    blit c { cmd with flags := f } ctx m draws = blit c cmd ctx m draws := by
  have hstep : stepOf { cmd with flags := f } = stepOf cmd := by simp only [stepOf, h.scaled]
  have hlegal (step : Word) : legal c { cmd with flags := f } ctx m step = legal c cmd ctx m step := by
    simp only [legal, legalScale, legalDimensions, legalRange, legalAlignment, legalDisjoint, legalAdmitted, h.scaled,
      h.readSet_eq, h.writeSet_eq]
  have hrows : slackRows c.width { cmd with flags := f } = slackRows c.width cmd := by
    simp only [slackRows, h.slackPermitted_eq]
  unfold blit
  simp only [hstep, hlegal, hrows, h.runKernel_eq]

end PlacesAlike

/-- One unit wide, the last position is the first. -/
theorem last_of_one (x : Word) : x + 1#32 - 1 - BitVec.ofNat 32 0 = x + BitVec.ofNat 32 0 :=
  column_from_right x 1#32 Nat.one_pos

/-- One column wide and without slack, mirroring left to right changes nothing (R146). -/
theorem placesAlike_of_one_column {s : State} (hwidth : s.regs.cmd.dstW = 1#32) (oe : Bool) {w : PixelWidth}
    (hp : slackPermitted w (commandFor 1#3 oe s) = false) (ctx : Ctx) :
    PlacesAlike w (commandFor 1#3 oe s) ctx (flagsWord 0#3 oe) where
  scaled := by rw [scaled_flagsWord, scaled_commandFor]; rfl
  edges := by simp only [commandFor, flagsOE_flagsWord]
  units j _ i hi := by
    obtain rfl : i = 0 := by simpa [commandFor, snapshotCmd, hwidth] using hi
    have hcol : dstColIndex (commandFor 0#3 oe s) 0 = dstColIndex (commandFor 1#3 oe s) 0 := by
      rw [dstColIndex_commandFor, dstColIndex_commandFor, hwidth]
      exact (last_of_one s.regs.cmd.dstX).symm
    have hrow : dstRowIndex (commandFor 0#3 oe s) j = dstRowIndex (commandFor 1#3 oe s) j := by
      rw [dstRowIndex_commandFor, dstRowIndex_commandFor]
      rfl
    exact congrArg₂ (dstAddr w ctx) hrow hcol
  slack hp' := by simp [hp] at hp'

/-- One row high, turning the rows upside down changes nothing, slack included (R147). -/
theorem placesAlike_of_one_row {s : State} (hheight : s.regs.cmd.dstH = 1#32) (oe : Bool) (w : PixelWidth) (ctx : Ctx) :
    PlacesAlike w (commandFor 2#3 oe s) ctx (flagsWord 0#3 oe) := by
  have hrow {j : Nat} (hj : j < (commandFor 2#3 oe s).dstH.toNat) :
      dstRowIndex (commandFor 0#3 oe s) j = dstRowIndex (commandFor 2#3 oe s) j := by
    obtain rfl : j = 0 := by simpa [commandFor, snapshotCmd, hheight] using hj
    rw [dstRowIndex_commandFor, dstRowIndex_commandFor, hheight]
    exact (last_of_one s.regs.cmd.dstY).symm
  refine ⟨?_, ?_, fun j hj i _ => ?_, fun _ j hj => ?_⟩
  · rw [scaled_flagsWord, scaled_commandFor]
    rfl
  · simp only [commandFor, flagsOE_flagsWord]
  · have hcol : dstColIndex (commandFor 0#3 oe s) i = dstColIndex (commandFor 2#3 oe s) i := by
      rw [dstColIndex_commandFor, dstColIndex_commandFor]
      rfl
    exact congrArg₂ (dstAddr w ctx) (hrow hj) hcol
  · have hmirror : mirrorH (flagsWord 0#3 oe) = mirrorH (commandFor 2#3 oe s).flags := by
      simp only [commandFor, mirrorH_flagsWord]
      rfl
    rw [slackAddr, slackAddr, ← hrow hj, hmirror]
    rfl

/-! The four unscaled operations (R145 to R148). -/

/-- Settles O27: key 0 mirrors nothing and reads by the offsets. -/
theorem bltCopiesRectangle : Obligations.BltCopiesRectangle := by
  unfold Obligations.BltCopiesRectangle
  exact fun s oe => ⟨encode_blitInstr_word 0#3 oe, fun _ => exec_blitInstr_copies⟩

/-- Settles O28: key 1 counts the columns from the right. -/
theorem bltHMirrorsColumns : Obligations.BltHMirrorsColumns := by
  unfold Obligations.BltHMirrorsColumns
  refine fun s oe => ⟨encode_blitInstr_word 1#3 oe, fun _ => exec_blitInstr_copies, fun hp hwidth => ?_⟩
  exact (exec_blitInstr_congr ((placesAlike_of_one_column hwidth oe hp (snapshotCtx s.regs)).blit_eq s.mem (slackDraws s))).symm

/-- Settles O29: key 2 counts the rows from the bottom. -/
theorem bltVFlipsRows : Obligations.BltVFlipsRows := by
  unfold Obligations.BltVFlipsRows
  refine fun s oe => ⟨encode_blitInstr_word 2#3 oe, fun _ => exec_blitInstr_copies, fun hheight => ?_⟩
  exact (exec_blitInstr_congr ((placesAlike_of_one_row hheight oe s.cfg.width (snapshotCtx s.regs)).blit_eq s.mem (slackDraws s))).symm

/-- Settles O30: key 3 counts the rows from the bottom and the columns from the right. -/
theorem bltHVTurnsRectangle : Obligations.BltHVTurnsRectangle := by
  unfold Obligations.BltHVTurnsRectangle
  exact fun s oe => ⟨encode_blitInstr_word 3#3 oe, fun _ => exec_blitInstr_copies⟩

/-! The four scaled operations (R149 to R152). -/

/-- A scaled operation that copies, with distinct destination units, copies the texels the scaler selects and writes no slack. -/
theorem exec_scaled_copies {key : BitVec 3} (hkey : key.getLsbD 2 = true) {oe : Bool} {s : State} {step : Word}
    (hruns : BlitRuns key oe s step)
    (hdistinct : UnitsDistinct s.cfg.width (commandFor key oe s) (snapshotCtx s.regs)) :
    ∃ t, exec (blitInstr key oe) s = .next t ∧
      Copies s t (commandFor key oe s) (placeOf key s) (sourceOf key oe s step) [] 0 := by
  have hp := slackPermitted_scaled hkey s.cfg.width oe s
  have houtside : SlackOutside s.cfg.width (commandFor key oe s) (snapshotCtx s.regs) := fun hp' => by simp [hp] at hp'
  have hcopies := exec_blitInstr_copies hruns hdistinct houtside
  rwa [slackBytes_eq_nil (ne_true_of_eq_false hp), slackRows, if_neg (ne_true_of_eq_false hp)] at hcopies

/-- A scaled operation is its form without OVERWRITE_EDGES (R134). -/
theorem exec_scaled_without_edges {key : BitVec 3} (hkey : key.getLsbD 2 = true) (oe : Bool) (s : State) :
    exec (blitInstr key oe) s = exec (blitInstr key false) s := by
  cases oe with
  | false => rfl
  | true => exact scaledBlitIgnoresOverwriteEdges key s hkey

/-- At SCALE = 1.0 the scaled form of an operation is the unscaled one, with or without OVERWRITE_EDGES (R132, R134). -/
theorem exec_scaled_at_scale_one {key : BitVec 3} (hkey : key.getLsbD 2 = false) (oe : Bool) {s : State} (h : AtScaleOne s) :
    exec (blitInstr (key ||| 4#3) oe) s = exec (blitInstr key false) s :=
  (exec_scaled_without_edges (getLsbD_two_or_four key) oe s).trans (scaleIdentity key s hkey h)

/-- Settles O31: key 4 mirrors nothing and reads by the scaler. -/
theorem bltsSamplesRectangle : Obligations.BltsSamplesRectangle := by
  unfold Obligations.BltsSamplesRectangle
  exact fun s oe => ⟨encode_blitInstr_word 4#3 oe, fun _ => exec_scaled_copies rfl, scaleOutOfRangeIsRefused 4#3 oe s,
    exec_scaled_at_scale_one (key := 0#3) rfl oe, exec_scaled_without_edges (key := 4#3) rfl oe s⟩

/-- Settles O32: key 5 counts the columns from the right and reads by the scaler. -/
theorem bltsHSamplesMirrored : Obligations.BltsHSamplesMirrored := by
  unfold Obligations.BltsHSamplesMirrored
  exact fun s oe => ⟨encode_blitInstr_word 5#3 oe, fun _ => exec_scaled_copies rfl, scaleOutOfRangeIsRefused 5#3 oe s,
    exec_scaled_at_scale_one (key := 1#3) rfl oe, exec_scaled_without_edges (key := 5#3) rfl oe s⟩

/-- Settles O33: key 6 counts the rows from the bottom and reads by the scaler. -/
theorem bltsVSamplesFlipped : Obligations.BltsVSamplesFlipped := by
  unfold Obligations.BltsVSamplesFlipped
  exact fun s oe => ⟨encode_blitInstr_word 6#3 oe, fun _ => exec_scaled_copies rfl, scaleOutOfRangeIsRefused 6#3 oe s,
    exec_scaled_at_scale_one (key := 2#3) rfl oe, exec_scaled_without_edges (key := 6#3) rfl oe s⟩

/-- Settles O34: key 7 counts the rows from the bottom and the columns from the right, and reads by the scaler. -/
theorem bltsHVSamplesTurned : Obligations.BltsHVSamplesTurned := by
  unfold Obligations.BltsHVSamplesTurned
  exact fun s oe => ⟨encode_blitInstr_word 7#3 oe, fun _ => exec_scaled_copies rfl, scaleOutOfRangeIsRefused 7#3 oe s,
    exec_scaled_at_scale_one (key := 3#3) rfl oe, exec_scaled_without_edges (key := 7#3) rfl oe s⟩

/-! Equal sources give equal pixels (R154). -/

/-- A byte that a write covers, or that two memories agree on, is equal in both after the same write. -/
theorem readByte_memWrite_congr {m1 m2 : Memory} {d a : Word} {bs : List Byte}
    (h : readByte m1 a = readByte m2 a ∨ ∃ k < bs.length, a = d + BitVec.ofNat 32 k) :
    readByte (memWrite m1 d bs) a = readByte (memWrite m2 d bs) a := by
  induction bs generalizing m1 m2 d with
  | nil =>
    obtain hagree | ⟨k, hk, -⟩ := h
    · exact hagree
    · cases hk
  | cons b bs ih =>
    refine ih ?_
    obtain hagree | ⟨k, hk, he⟩ := h
    · exact .inl (by rw [readByte_writeByte, readByte_writeByte, hagree])
    · cases k with
      | zero =>
        obtain rfl : a = d := he.trans (BitVec.add_zero d)
        exact .inl (by rw [readByte_writeByte_same, readByte_writeByte_same])
      | succ k => exact .inr ⟨k, Nat.lt_of_succ_lt_succ hk, he.trans (addr_succ d k)⟩

section
variable {w : PixelWidth} {m1 m2 m1' m2' : Memory} {a : Word}

/-- Of memories that agree on what a transfer reads, it leaves equal every byte that it writes or that was equal. -/
theorem applyTransfer_agree {t : Transfer} (hreads : ∀ x ∈ t.reads w, readByte m1 x = readByte m2 x)
    (h1 : applyTransfer w m1 t = some m1') (h2 : applyTransfer w m2 t = some m2')
    (h : readByte m1 a = readByte m2 a ∨ a ∈ t.writes w) : readByte m1' a = readByte m2' a := by
  cases t with
  | copy s d =>
    have hsource : memRead m1 s (unitSize w) = memRead m2 s (unitSize w) :=
      memRead_congr fun k hk => hreads _ (mem_unitBytes.2 ⟨k, hk, rfl⟩)
    simp only [applyTransfer, hsource] at h1 h2
    cases hb : memRead m2 s (unitSize w) with
    | none => simp [hb] at h1
    | some b =>
      simp only [hb, Option.some.injEq] at h1 h2
      subst h1 h2
      refine readByte_memWrite_congr (h.imp_right fun ha => ?_)
      rw [memRead_length hb]
      exact mem_unitBytes.1 ha
  | slack d x =>
    obtain rfl := Option.some.inj h1
    obtain rfl := Option.some.inj h2
    refine readByte_memWrite_congr (h.imp_right fun ha => ⟨0, by simp, ?_⟩)
    exact (List.mem_singleton.1 ha).trans (BitVec.add_zero d).symm

/-- So do transfers one after another: what a later one reads is left equal by the earlier ones. -/
theorem transfers_agree {l : List Transfer} (hreads : ∀ t ∈ l, ∀ x ∈ t.reads w, readByte m1 x = readByte m2 x)
    (h1 : l.foldlM (applyTransfer w) m1 = some m1') (h2 : l.foldlM (applyTransfer w) m2 = some m2')
    (h : readByte m1 a = readByte m2 a ∨ ∃ t ∈ l, a ∈ t.writes w) : readByte m1' a = readByte m2' a := by
  induction l generalizing m1 m2 with
  | nil =>
    cases h1
    cases h2
    exact h.resolve_right nofun
  | cons t l ih =>
    obtain ⟨n1, ht1, hl1⟩ := Option.bind_eq_some_iff.1 h1
    obtain ⟨n2, ht2, hl2⟩ := Option.bind_eq_some_iff.1 h2
    have hagree {x : Word} := applyTransfer_agree (a := x) (hreads t List.mem_cons_self) ht1 ht2
    refine ih (fun t' ht' x hx => hagree (.inl (hreads t' (List.mem_cons_of_mem _ ht') x hx))) hl1 hl2 ?_
    obtain heq | ⟨t', ht', ha⟩ := h
    · exact .inl (hagree (.inl heq))
    · obtain rfl | ht' := List.mem_cons.1 ht'
      · exact .inl (hagree (.inr ha))
      · exact .inr ⟨t', ht', ha⟩

/-- A byte is equal after the transfers, or none of them writes it and each memory keeps its own. -/
theorem transfers_agree_or_keep {l : List Transfer} (hreads : ∀ t ∈ l, ∀ x ∈ t.reads w, readByte m1 x = readByte m2 x)
    (h1 : l.foldlM (applyTransfer w) m1 = some m1') (h2 : l.foldlM (applyTransfer w) m2 = some m2') (a : Word) :
    readByte m1' a = readByte m2' a ∨ (readByte m1' a = readByte m1 a ∧ readByte m2' a = readByte m2 a) := by
  by_cases hwritten : ∃ t ∈ l, a ∈ t.writes w
  · exact .inl (transfers_agree hreads h1 h2 (.inr hwritten))
  · have hunwritten : ∀ t ∈ l, a ∉ t.writes w := fun t ht ha => hwritten ⟨t, ht, ha⟩
    exact .inr ⟨transfers_frame h1 hunwritten, transfers_frame h2 hunwritten⟩

end

/-- Every byte of the rectangle is written by one of the copies (R153). -/
theorem nominalBytes_written {w : PixelWidth} {cmd : Cmd} {ctx : Ctx} {a : Word} (ha : a ∈ nominalBytes w cmd ctx) (step : Word)
    (draws : Nat → Option Byte) : ∃ t ∈ transfersOf w cmd ctx step draws cmd.dstH.toNat, a ∈ t.writes w := by
  obtain ⟨j, hj, i, hi, ha⟩ := mem_nominalBytes.1 ha
  obtain ⟨l1, l2, hsplit, -⟩ := transfersOf_split_copy (w := w) cmd ctx step draws hj hi
  exact ⟨.copy (srcUnitAddr w cmd step j i) (dstUnitAddr w cmd ctx j i), by simp [hsplit], ha⟩

/-- A rectangle without area has no bytes. -/
theorem nominalBytes_of_zero_area {w : PixelWidth} {cmd : Cmd} {ctx : Ctx} {a : Word} (h : cmd.dstW = 0#32 ∨ cmd.dstH = 0#32) :
    a ∉ nominalBytes w cmd ctx := by
  rw [mem_nominalBytes]
  rintro ⟨j, hj, i, hi, -⟩
  obtain hwidth | hheight := h
  · simp [hwidth] at hi
  · simp [hheight] at hj

/-- Settles O39: both blits make the same transfers, or neither makes any. -/
theorem equalSourcesGiveEqualPixels : Obligations.EqualSourcesGiveEqualPixels := by
  unfold Obligations.EqualSourcesGiveEqualPixels
  intro c cmd ctx step m1 m2 m1' m2' draws u1 u2 hdraw hstep hsources h1 h2
  by_cases hzero : cmd.dstW = 0#32 ∨ cmd.dstH = 0#32
  · rw [blit_of_nothing_drawn hstep (.inr hzero)] at h1 h2
    cases h1
    cases h2
    exact ⟨rfl, fun a ha => absurd ha (nominalBytes_of_zero_area hzero), fun a => .inr ⟨rfl, rfl⟩⟩
  · have hexit : ¬(ctx.suppressDraw = true ∨ cmd.dstW = 0#32 ∨ cmd.dstH = 0#32) := by
      simpa [hdraw] using hzero
    obtain ⟨step1, -, -, -, hstep1, -, hused1, htransfers1⟩ := (blit_ok h1).resolve_left fun ⟨_, _, h⟩ => hexit h
    obtain ⟨step2, -, -, -, hstep2, -, hused2, htransfers2⟩ := (blit_ok h2).resolve_left fun ⟨_, _, h⟩ => hexit h
    obtain rfl := Option.some.inj (hstep.symm.trans hstep1)
    obtain rfl := Option.some.inj (hstep.symm.trans hstep2)
    have hreads : ∀ t ∈ transfersOf c.width cmd ctx step draws cmd.dstH.toNat, ∀ x ∈ t.reads c.width,
        readByte m1 x = readByte m2 x := fun t ht x hx => hsources x (transfer_reads c.width ht hx)
    exact ⟨hused1.trans hused2.symm,
      fun a ha => transfers_agree hreads htransfers1 htransfers2 (.inr (nominalBytes_written ha step draws)),
      transfers_agree_or_keep hreads htransfers1 htransfers2⟩

end Sys2Proof.Machine
end

section
/-! PROOFS. The host interface (44_host_interface.md): which accesses run (R170, R176), the writes and reads of the register port
(R171, R172, R174, R178), GO (R173), the host held during a blit, and what changes memory (R171 to R174). -/

namespace Sys2Proof.Machine

/-! The accesses that run (R170, R176). -/

/-- An aligned offset is a multiple of 4 (R78). -/
theorem isAligned_iff {a : Access} : a.isAligned = true ↔ a.offset.toNat % 4 = 0 := by
  rw [Access.isAligned, beq_iff_eq, ← BitVec.toNat_inj]
  simp

/-- The well-formed accesses are the aligned words (R176). -/
theorem wellFormed_iff {a : Access} : a.wellFormed = true ↔ a.width = .word ∧ a.offset.toNat % 4 = 0 := by
  rw [Access.wellFormed, Bool.and_eq_true, isAligned_iff, Access.isWord, beq_iff_eq]

/-- An access that is not well formed is refused (R176). -/
theorem performAccess_of_not_wellFormed {a : Access} (h : ¬ a.wellFormed = true) (s : State) :
    performAccess a s = .refused .accessShape := if_neg h

/-- A well-formed access runs the instruction it decodes to (R170). -/
theorem performAccess_of_decodes {a : Access} {i : Instr} (hw : a.wellFormed = true) (hd : decodeTW a.tw = .ok i) (s : State) :
    performAccess a s = exec i s := by
  rw [performAccess, if_pos hw, hd]

/-- An aligned transaction word decodes: every one of the sixteen registers is assigned (R80). -/
theorem decodeTW_of_isAligned {a : Access} (h : a.isAligned = true) : ∃ i, decodeTW a.tw = .ok i :=
  ⟨_, if_pos (eq_of_beq h)⟩

/-- Settles O5: the step performs the access, and a well-formed access is `exec` of what it decodes to. -/
theorem stepRunsDecodedAccess : Obligations.StepRunsDecodedAccess := by
  unfold Obligations.StepRunsDecodedAccess
  intro s a rest i hrun hhost hw hd
  rw [step_of_host_cons hrun hhost, performOp, performAccess_of_decodes hw hd]

/-- Settles O7, by `wellFormed_iff`: the refused shapes are the accesses that are not well formed. -/
theorem onlyAlignedWordAccessesRun : Obligations.OnlyAlignedWordAccessesRun := by
  unfold Obligations.OnlyAlignedWordAccessesRun
  constructor
  · intro s a rest hrun hhost hshape
    have hw : ¬ a.wellFormed = true := by
      rw [wellFormed_iff]
      exact not_and_or.2 hshape
    rw [step_of_host_cons hrun hhost, performOp, performAccess_of_not_wellFormed hw]
  · intro a hword haligned
    exact ⟨wellFormed_iff.2 ⟨hword, haligned⟩, decodeTW_of_isAligned (isAligned_iff.2 haligned)⟩

/-! The register port (R171, R172, R174, R178). -/

/-- Settles O14: the write is `writeReg` and nothing else, which stores the defined bits of the value. -/
theorem writeStoresItsRegister : Obligations.WriteStoresItsRegister := by
  unfold Obligations.WriteStoresItsRegister
  intro r v s hr
  refine ⟨?_, _, exec_writeInstr hr v s, ?_, fun r' hne => readReg_writeReg_other hne v s.regs, rfl⟩
  · rw [encode_writeInstr, encodedData_of_ne_start hr]
  · rw [withRegs_regs, readReg_writeReg_same]
    cases r with
    | start => exact absurd rfl hr
    | _ => rfl

/-- Settles O15: bit 0 of the data selects the even write, whose meaning is the same state. -/
theorem evenStartWriteHasNoEffect : Obligations.EvenStartWriteHasNoEffect := by
  unfold Obligations.EvenStartWriteHasNoEffect
  intro v s heven
  have hd : decodeTW (mkTW true 0x3C#6 v) = .ok (writeInstr .start v) := decodeTW_mkTW true .start v
  rw [hd, writeInstr_start_even heven]
  exact ⟨rfl, rfl⟩

/-- START holds no state and reads 0 (R37, R172). -/
theorem readReg_start (g : Regs) : readReg .start g = 0#32 := rfl

/-- Settles O16: a read decodes by the register's offset and answers what `readReg` gives, which for START is 0. -/
theorem readAnswersWithRegister : Obligations.ReadAnswersWithRegister := by
  unfold Obligations.ReadAnswersWithRegister
  intro r d s
  refine ⟨decodeTW_mkTW false r d, ?_⟩
  rw [exec_readInstr]
  split
  · next hstart => rw [hstart, readReg_start]
  · rfl

/-- Two register writes in a row leave the register file that both stores make. -/
theorem exec_write_then_write {r r' : RegName} (h : r ≠ .start) (h' : r' ≠ .start) (v v' : Word) (s : State) :
    andThen (exec (writeInstr r v) s) (exec (writeInstr r' v')) =
      .next (s.withRegs (writeReg r' v' (writeReg r v s.regs))) := by
  rw [exec_writeInstr h, andThen, exec_writeInstr h', withRegs_regs]
  rfl

/-- Settles O18, by the laws of the register file. -/
theorem registerWritesCommute : Obligations.RegisterWritesCommute := by
  unfold Obligations.RegisterWritesCommute
  constructor
  · intro r r' v v' s hne hr hr'
    rw [exec_write_then_write hr hr', exec_write_then_write hr' hr, writeReg_comm hne]
  · intro r v v' s hr
    rw [exec_write_then_write hr hr, exec_writeInstr hr, writeReg_writeReg_same]

/-! GO (R173). -/

/-- Settles O20: the operation GO runs has START's snapshot as its command, and it answers as `Blit` does. -/
theorem goRunsBlitOnSnapshots : Obligations.GoRunsBlitOnSnapshots := by
  unfold Obligations.GoRunsBlitOnSnapshots
  intro s
  rw [exec_go, runBlit, commandFor_flags]
  constructor
  · intro m used hb
    rw [hb]
  · intro e hb
    rw [hb]

/-! The host held during a blit (R173, log 8), and what changes memory (R58, R171 to R174). -/

/-- Settles O9: the step finishes the blit, which writes memory and the draws and makes the engine idle. -/
theorem hostIsHeldDuringBlit : Obligations.HostIsHeldDuringBlit := by
  unfold Obligations.HostIsHeldDuringBlit
  intro s t r hrun h
  obtain ⟨r', -, hresume⟩ | ⟨hidle, -⟩ := step_next h
  · obtain ⟨ht, -⟩ := resumeBlit_next hresume
    rw [ht]
    exact ⟨finishBlit_host .., finishBlit_regs .., finishBlit_reply .., finishBlit_cfg .., finishBlit_run ..⟩
  · rw [hrun] at hidle
    cases hidle

/-- An access that runs and changes memory is GO (R171, R172, R174). -/
theorem exec_access_mem {t : TW} {i : Instr} {s s' : State} (hd : decodeTW t = .ok i) (h : exec i s = .next s')
    (hmem : s'.mem ≠ s.mem) : i = .go := by
  obtain ⟨r, v, -, -, rfl⟩ | ⟨a, rfl⟩ | rfl | ⟨hgo, -⟩ := exec_access_next hd h
  · exact absurd (withRegs_mem s _) hmem
  · exact absurd (withReply_mem s a) hmem
  · exact absurd rfl hmem
  · exact hgo

/-- Settles O45, by what a step can do (`step_next`): an access changes memory only as GO, and loads and reset leave it alone. -/
theorem memoryChangesOnlyByBlitsAndHostStores : Obligations.MemoryChangesOnlyByBlitsAndHostStores := by
  unfold Obligations.MemoryChangesOnlyByBlitsAndHostStores
  intro s t h hmem
  obtain ⟨r, hrun, -⟩ | ⟨-, hidle⟩ := step_next h
  · exact .inl ⟨r, hrun⟩
  right
  obtain ⟨-, rfl⟩ | ⟨a, rest, i, hh, -, hd, hi⟩ | ⟨a, b, rest, hh, -, rfl⟩ | ⟨a, b, rest, -, -, rfl⟩ | ⟨rest, -, rfl⟩ := hidle
  · exact absurd rfl hmem
  · obtain rfl := exec_access_mem hd hi hmem
    exact .inl ⟨a, rest, hh, hd⟩
  · exact .inr ⟨a, b, rest, hh, withMem_mem _ _⟩
  · exact absurd (by rw [withReply_mem, withHost_mem]) hmem
  · exact absurd (by rw [resetEngine_mem, withHost_mem]) hmem

end Sys2Proof.Machine
end

section
/-! PROOFS. Exceptions (60_exceptions.md): the clauses of `Legal` (R182) on the command alone, and the refusal of a command that
reaches the copy loop and breaks a clause (R183). -/

namespace Sys2Proof.Machine

/-! The clauses LG2 and LG3 (R182). -/

theorem isPowerOfTwo_iff {x : Word} : isPowerOfTwo x = true ↔ ∃ k < 32, x.toNat = 2 ^ k := by
  simp only [isPowerOfTwo, List.any_eq_true, List.mem_range, beq_iff_eq]

/-- LG2 asks a scaled command for power-of-two dimensions. -/
theorem legalDimensions_iff {cmd : Cmd} :
    legalDimensions cmd = true ↔
      (scaled cmd.flags = true → (∃ k < 32, cmd.srcW.toNat = 2 ^ k) ∧ ∃ k < 32, cmd.srcH.toNat = 2 ^ k) := by
  rw [legalDimensions, Bool.or_eq_true, or_iff_not_imp_left, Bool.not_eq_true, Bool.not_eq_false', Bool.and_eq_true,
    isPowerOfTwo_iff, isPowerOfTwo_iff]

/-- LG3 asks an unscaled command for a region inside the bitmap. -/
theorem legalRange_iff {cmd : Cmd} :
    legalRange cmd = true ↔
      (scaled cmd.flags = false →
        cmd.srcX.toNat + cmd.dstW.toNat ≤ cmd.srcW.toNat ∧ cmd.srcY.toNat + cmd.dstH.toNat ≤ cmd.srcH.toNat) := by
  rw [legalRange, Bool.or_eq_true, or_iff_not_imp_left, Bool.not_eq_true, Bool.and_eq_true, decide_eq_true_iff, decide_eq_true_iff]

section
variable {c : Config} {cmd : Cmd} {ctx : Ctx} {m : Memory} {step : Word}

theorem legalDimensions_and_legalRange_of_legal (h : legal c cmd ctx m step = true) :
    legalDimensions cmd = true ∧ legalRange cmd = true := by
  simp only [legal, Bool.and_eq_true] at h
  obtain ⟨⟨⟨⟨⟨-, hdimensions⟩, hrange⟩, -⟩, -⟩, -⟩ := h
  exact ⟨hdimensions, hrange⟩

/-! The refusal (R183). -/

/-- Past the exits of steps 1 to 4 `Blit` refuses a command outside `Legal` (R143 step 5, R183). -/
theorem blit_of_not_legal (hd : ctx.suppressDraw = false) (hw : cmd.dstW ≠ 0#32) (hh : cmd.dstH ≠ 0#32)
    (hs : stepOf cmd = some step) (hl : ¬ legal c cmd ctx m step = true) (draws : Nat → Option Byte) :
    blit c cmd ctx m draws = .error .outsideLegal := by
  simp [blit, hd, hw, hh, hs, hl]

end

/-- An operation that reaches step 5 with a command outside `Legal` is refused. -/
theorem exec_blitInstr_of_not_legal {key : BitVec 3} {oe : Bool} {s : State} {step : Word} (h : ReachesCopy key oe s step)
    (hl : ¬ legal s.cfg (commandFor key oe s) (snapshotCtx s.regs) s.mem step = true) :
    exec (blitInstr key oe) s = .refused .outsideLegal := by
  rw [exec_blitInstr, runBlit, blit_of_not_legal (cmd := commandFor key oe s) h.drawing h.width h.height h.dividing hl]

/-- Settles O25: a command in `Legal` has every clause, so one broken clause puts the command outside. -/
theorem commandOutsideLegalIsRefused : Obligations.CommandOutsideLegalIsRefused := by
  unfold Obligations.CommandOutsideLegalIsRefused
  intro key oe s step hreaches cmd ctx w hbroken
  refine exec_blitInstr_of_not_legal hreaches fun hlegal => ?_
  obtain ⟨hdimensions, hrange⟩ := legalDimensions_and_legalRange_of_legal hlegal
  obtain ⟨hbase, hfb⟩ := legalAlignment_iff.1 (legalAlignment_of_legal hlegal)
  obtain ⟨hdisjoint, hreads, hwrites⟩ := legal_sets hlegal
  obtain ⟨hscaled, hdims⟩ | ⟨hunscaled, hregion⟩ | hmod | hmod | ⟨a, har, haw⟩ | ⟨a, ha, hno⟩ | ⟨a, ha, hno⟩ := hbroken
  · obtain ⟨⟨k, hk, hsrcW⟩, k', hk', hsrcH⟩ := legalDimensions_iff.1 hdimensions hscaled
    exact hdims.elim (fun hne => hne k hk hsrcW) fun hne => hne k' hk' hsrcH
  · obtain ⟨hacross, hdown⟩ := legalRange_iff.1 hrange hunscaled
    exact hregion.elim hacross.not_gt hdown.not_gt
  · exact hmod (Nat.mod_eq_zero_of_dvd hbase)
  · exact hmod (Nat.mod_eq_zero_of_dvd hfb)
  · exact hdisjoint a har haw
  · obtain ⟨hadmitted, hholds⟩ := hreads a ha
    obtain hdenied | hempty := hno
    · exact Bool.false_ne_true (hdenied.symm.trans hadmitted)
    · rw [hempty] at hholds
      cases hholds
  · exact Bool.false_ne_true (hno.symm.trans (hwrites a ha))

end Sys2Proof.Machine
end

section
/-! PROOFS. Reset (70_reset_and_hazards.md): the register file it leaves (R200), the idle engine (R201), memory left alone (R202),
and GO straight after it (R203). -/

namespace Sys2Proof.Machine

/-- The sixteen registers of the reset register file read 0 (R46, R200). -/
@[simp] theorem readReg_regsZero (r : RegName) : readReg r Regs.zero = 0#32 := by cases r <;> rfl

/-- An idle engine's step with reset as the host's next operation resets it (log 9). -/
theorem step_reset {s : State} {rest : List HostOp} (hrun : s.run = none) (hhost : s.host = .reset :: rest) :
    step s = .next (resetEngine (s.withHost rest)) := by
  rw [step_of_host_cons hrun hhost, performOp]

/-- Settles O11: the step's state is that of `resetEngine`, whose register file reads 0 throughout. -/
theorem resetKeepsMemory : Obligations.ResetKeepsMemory := by
  unfold Obligations.ResetKeepsMemory
  intro s rest hrun hhost
  exact ⟨_, step_reset hrun hhost, resetEngine_mem _, readReg_regsZero, resetEngine_run _, resetEngine_cfg _,
    resetEngine_reply _, resetEngine_draws _, resetEngine_host _⟩

/-- Settles O12: the register file of the reset state is `Regs.zero`. -/
theorem resetRegistersReadZero : Obligations.ResetRegistersReadZero := by
  unfold Obligations.ResetRegistersReadZero
  exact ⟨readReg_regsZero, rfl⟩

/-- GO on the command of all zeros: key 0 is unscaled, so no SCALE is refused, and `DST_W = 0` ends `Blit` with nothing drawn
(R144, R203). -/
theorem exec_go_of_regsZero {s : State} (h : s.regs = Regs.zero) : exec .go s = .next s := by
  have hunscaled : ¬ ScaleRefused (flagsKey 0#32) s := fun ⟨hscaled, _⟩ => absurd hscaled (by decide)
  have hzero : s.regs.cmd.dstW = 0#32 := h ▸ rfl
  rw [goRunsTheOperationFlagsSelects, h, readReg_regsZero, decodeFlags]
  exact exec_blitInstr_of_nothing_drawn hunscaled (.inr (.inl hzero)) _

/-- Settles O13: memory and the parameters play no part in GO on the reset register file. -/
theorem goAfterResetDoesNothing : Obligations.GoAfterResetDoesNothing := by
  unfold Obligations.GoAfterResetDoesNothing
  exact fun _ _ => exec_go_of_regsZero rfl

end Sys2Proof.Machine
end
